-- ==== Sys2Proof/Word.lean ====
section
/-! DEFINITION. The widths of the engine's port words (00_scope.md R6, 10_state.md R29). -/

namespace Sys2Proof

/-- A data word: `W` = 256 bits (R6). -/
abbrev Word := BitVec 256

/-- A command word: `CMD_W` = 8 bits (R6). -/
abbrev Byte := BitVec 8

/-- A two-bit code: a status code or a surface tag (`STATUS_W`, `SURF_W`, R6). -/
abbrev Code := BitVec 2

end Sys2Proof
end

