-- ==== Sys2Proof/Config.lean ====
section
/-! DEFINITION. What an implementation fixes and the spec leaves open, as constants with no body:
no proof can see their values, so a claim holds whatever they are (00_scope.md R7,
93_implementation_defined.md I4 to I8). -/

namespace Sys2Proof

/-- One less than the queue's capacity: an open parameter (R7, I4; log entry 1). -/
opaque Config.depthPred : Nat

/-- `DEPTH`, the capacity of the in-flight queue, an integer of at least 1 (R7, R24). -/
def Config.depth : Nat := Config.depthPred + 1

/-- One less than the latency drawn from a given content of the internal latches (R7, I5; log entry 2). -/
opaque Config.latencyPred : Nat → Nat

/-- `LATENCY`, in cycles, at least 1; it may differ from one draw to the next (R7, R158). -/
def Config.latency (latch : Nat) : Nat := Config.latencyPred latch + 1

/-- For how many cycles `req_ready` stays low, from a given content of the internal latches: finite
and otherwise open (R30, R153; log entry 3). -/
opaque Config.readyWait : Nat → Nat

/-- What the internal latches hold right after reset: unspecified (R33, I8; log entry 5). -/
opaque Config.latchAtReset : Nat

/-- What the internal latches hold after a rising edge: an unspecified function of what they held and
of the sampled `rst`, `req_valid`, `req_cmd`, `req_x` and `rsp_ready`, so that no claim can rest on
timing being the same for different operands (R33, R158; log entry 5). -/
opaque Config.latchNext : Nat → Bool → Bool → Byte → Word → Bool → Nat

/-- `rsp_status` while `rsp_valid = 0`: any value (R30, R33, I6; log entry 4). -/
opaque Config.idleStatus : Nat → Code

/-- `rsp_surf` while `rsp_valid = 0`: any value (R30, R33, I6; log entry 4). -/
opaque Config.idleSurf : Nat → Code

/-- `rsp_result` while `rsp_valid = 0`: any value (R30, R33, I6; log entry 4). -/
opaque Config.idleResult : Nat → Word

end Sys2Proof
end

