-- ==== Sys2Proof/Syntax.lean ====
section
/-! DEFINITION. The commands of the engine, one constructor per row of the opcode table
(30_encoding.md R65), the raw request a host can send (R60), and the assembler's abstract syntax
(R69 to R71). -/

namespace Sys2Proof

/-- A request as it stands on the port: any command word, legal or not, with its operand (R60). -/
structure Command where
  cmd : Byte
  x   : Word
  deriving DecidableEq, Repr

/-- The two legal values of the SURF field (R61). -/
inductive Surface where
  | raw
  | typed
  deriving DecidableEq, Repr

/-- The six named constants (R22, R62). -/
inductive ConstName where
  | maxSD59x18
  | minSD59x18
  | maxWholeSD59x18
  | e
  | pi
  | sqrtMaxInput
  deriving DecidableEq, Repr

/-- The functions of the FUNC field (R62). -/
inductive Func where
  | sqrt
  | isqrt
  | const (c : ConstName)
  deriving DecidableEq, Repr

/-- The fifteen legal commands (R65). Every command carries the whole operand word `X`, also where the
command ignores it (R60, R63). -/
inductive Instr where
  | sqrtRaw (x : Word)
  | sqrtTyped (x : Word)
  | isqrtRaw (x : Word)
  | constRawMax (x : Word)
  | constTypedMax (x : Word)
  | constRawMin (x : Word)
  | constTypedMin (x : Word)
  | constRawMaxWhole (x : Word)
  | constTypedMaxWhole (x : Word)
  | constRawE (x : Word)
  | constTypedE (x : Word)
  | constRawPi (x : Word)
  | constTypedPi (x : Word)
  | constRawSqrtMaxInput (x : Word)
  | constTypedSqrtMaxInput (x : Word)
  deriving DecidableEq, Repr

/-- The call surface of a command (R61, R65). -/
def Instr.surface : Instr → Surface
  | .sqrtRaw _ => .raw
  | .sqrtTyped _ => .typed
  | .isqrtRaw _ => .raw
  | .constRawMax _ => .raw
  | .constTypedMax _ => .typed
  | .constRawMin _ => .raw
  | .constTypedMin _ => .typed
  | .constRawMaxWhole _ => .raw
  | .constTypedMaxWhole _ => .typed
  | .constRawE _ => .raw
  | .constTypedE _ => .typed
  | .constRawPi _ => .raw
  | .constTypedPi _ => .typed
  | .constRawSqrtMaxInput _ => .raw
  | .constTypedSqrtMaxInput _ => .typed

/-- The function of a command (R62, R65). -/
def Instr.func : Instr → Func
  | .sqrtRaw _ => .sqrt
  | .sqrtTyped _ => .sqrt
  | .isqrtRaw _ => .isqrt
  | .constRawMax _ => .const .maxSD59x18
  | .constTypedMax _ => .const .maxSD59x18
  | .constRawMin _ => .const .minSD59x18
  | .constTypedMin _ => .const .minSD59x18
  | .constRawMaxWhole _ => .const .maxWholeSD59x18
  | .constTypedMaxWhole _ => .const .maxWholeSD59x18
  | .constRawE _ => .const .e
  | .constTypedE _ => .const .e
  | .constRawPi _ => .const .pi
  | .constTypedPi _ => .const .pi
  | .constRawSqrtMaxInput _ => .const .sqrtMaxInput
  | .constTypedSqrtMaxInput _ => .const .sqrtMaxInput

/-- The operand word of a command (R60). -/
def Instr.operand : Instr → Word
  | .sqrtRaw x => x
  | .sqrtTyped x => x
  | .isqrtRaw x => x
  | .constRawMax x => x
  | .constTypedMax x => x
  | .constRawMin x => x
  | .constTypedMin x => x
  | .constRawMaxWhole x => x
  | .constTypedMaxWhole x => x
  | .constRawE x => x
  | .constTypedE x => x
  | .constRawPi x => x
  | .constTypedPi x => x
  | .constRawSqrtMaxInput x => x
  | .constTypedSqrtMaxInput x => x

/-! ### The assembler's abstract syntax -/

/-- An operand literal as it is written (R70). Digits are listed as written, most significant first. -/
inductive Literal where
  /-- `<decimal integer>`, optionally negative. -/
  | int (n : Int)
  /-- `0x<hex>`. -/
  | hex (digits : List Nat)
  /-- `fp(<decimal>)`: the sign, the integer part, the digits after the point. -/
  | fp (negative : Bool) (whole : Nat) (fraction : List Nat)
  /-- A constant name. -/
  | name (c : ConstName)
  /-- `<name> + <integer>` and `<name> - <integer>`. -/
  | offset (c : ConstName) (n : Int)
  deriving DecidableEq, Repr

/-- One line of assembler (R69, R71); the short forms of R71 are the RAW surface. -/
inductive AsmLine where
  | sqrt (surface : Surface) (x : Literal)
  | isqrt (surface : Surface) (x : Literal)
  | const (surface : Surface) (c : ConstName)
  /-- `.cmd <byte>, <op>`, emitted as given even when illegal. -/
  | raw (cmd : Byte) (x : Literal)
  deriving DecidableEq, Repr

end Sys2Proof
end

