-- ==== Sys2Proof/Machine/State.lean ====
section
/-! DEFINITION. The state of the engine (10_state.md R21 to R34), the samples of its input ports, and
the reasons a step can stop. The engine has no registers, program counter, memory or mode (R26, R27,
R32, R40), so State has none. -/

namespace Sys2Proof.Machine

/-- The four statuses (60_exceptions.md R130). -/
inductive Status where
  | ok
  | neg
  | ovf
  | ill
  deriving DecidableEq, Repr

/-- A response record `(STATUS, SURF, RESULT)` (R23). -/
structure Response where
  status : Status
  surf   : Code
  result : Word
  deriving DecidableEq, Repr

/-- The engine's inputs as sampled on one rising edge of `clk` (R28, R29). -/
structure Pins where
  rst      : Bool
  reqValid : Bool
  reqCmd   : Byte
  reqX     : Word
  rspReady : Bool
  deriving DecidableEq, Repr

/-- No fault exists: nothing the spec describes stops the engine, failures are reported in-band
(R137, R138, 20_memory.md R46). Nobody raises a fault. -/
inductive Fault where
  deriving DecidableEq, Repr

/-- Why a step has no meaning. -/
inductive Refusal where
  /-- Raised by an arm of `exec` that has no meaning yet. Safe. No arm raises it. -/
  | notModelled (mnemonic : String)
  /-- Raised by `step` when the host changes or withdraws a request before it is taken: the spec puts
  such a host outside the model (I13, D32, R30). Safe: nothing can be proved of such a run. -/
  | requestNotHeld
  deriving DecidableEq, Repr

/-- The state. `q` and `rst` are the spec's `S = (Q, RST)` (R21); the other fields carry what the
spec leaves open and the outside world (see INVENTORY.md). -/
structure State where
  /-- `Q`, the in-flight queue, head first (R24). -/
  q         : List Response
  /-- `RST`, the reset-asserted flag (R28). -/
  rst       : Bool
  /-- Cycles until `rsp_valid` rises for the head of `Q` (R153, R158). -/
  validWait : Nat
  /-- Cycles until `req_ready` rises when there is room (R30, R153). -/
  readyWait : Nat
  /-- The internal latches, unspecified, from which free values are drawn (R33). -/
  latch     : Nat
  /-- The request the host has raised and must hold (R30, D32). -/
  held      : Option Command
  /-- The samples of the input ports at the rising edges to come (R28, R29). -/
  pins      : List Pins
  /-- The requests accepted since the last reset, oldest first (R159). -/
  accepted  : List Command
  /-- The responses delivered since the last reset, oldest first (R159). -/
  delivered : List Response
  deriving DecidableEq, Repr

/-- The state after reset: `Q` empty and `RST` 0, the host having dropped `rst` (R33, R150, R154).
The latches and the wait for `req_ready` are unspecified (log entries 3, 5, 10). -/
def State.reset : State where
  q         := []
  rst       := false
  validWait := 0
  readyWait := Config.readyWait Config.latchAtReset
  latch     := Config.latchAtReset
  held      := none
  pins      := []
  accepted  := []
  delivered := []

end Sys2Proof.Machine
end

