-- ==== Sys2Proof/Machine/Flags.lean ====
section
/-! DEFINITION. The status codes and the surface tags as the ports carry them (60_exceptions.md R130,
30_encoding.md R61). STATUS is the engine's only condition code (10_state.md R25). -/

namespace Sys2Proof.Machine

/-- The two-bit code of a status on `rsp_status` (R130). -/
def statusCode : Status → Code
  | .ok => 0b00#2
  | .neg => 0b01#2
  | .ovf => 0b10#2
  | .ill => 0b11#2

/-- The tag of the RAW surface (R61). -/
def surfRaw : Code := 0b00#2

/-- The tag of the TYPED surface (R61). -/
def surfTyped : Code := 0b01#2

end Sys2Proof.Machine
end

