-- ==== Sys2Proof/Machine/Operands.lean ====
section
/-! DEFINITION. The readings of a 256-bit word (00_scope.md R9, 30_encoding.md R63). -/

namespace Sys2Proof.Machine

/-- `uint(v)`, the unsigned reading (R9): the operand of ISQRT (R63). -/
def uint (v : Word) : Nat := v.toNat

/-- `sint(v)`, the two's-complement reading `uint(v) - 2^256 * v[255]` (R9): the operand of SQRT (R63). -/
def sint (v : Word) : Int := if v.getLsbD 255 then (uint v : Int) - 2 ^ 256 else (uint v : Int)

/-- `bv256(n)`, the word with `uint(bv256(n)) = n mod 2^256` (R9). -/
def bv256 (n : Int) : Word := BitVec.ofNat 256 (n % 2 ^ 256).toNat

end Sys2Proof.Machine
end

