-- ==== Sys2Proof/Machine/Ops.lean ====
section
/-! DEFINITION. The shared operations on the queue, and raising a failure: the only shared operation in
this engine that stands where other machines take an exception (60_exceptions.md R130, R137). -/

namespace Sys2Proof.Machine

/-- Whether a queue holds fewer than `n` records; it looks at no more of `n` than the queue is long. -/
def shorterThan : List Response → Nat → Bool
  | _, 0 => false
  | [], _ + 1 => true
  | _ :: q, n + 1 => shorterThan q n

/-- `|Q| < DEPTH` (R24). -/
def hasRoom (q : List Response) : Bool := shorterThan q Config.depth

/-- When `Accept` is enabled: `RST = 0` and `|Q| < DEPTH` (R31). -/
def canAccept (s : State) : Bool := !s.rst && hasRoom s.q

/-- Append a record at the tail of `Q` (R24). -/
def State.pushResponse (s : State) (r : Response) : State := { s with q := s.q ++ [r] }

/-- Deliver the head of `Q` to the host (R24, R31). -/
def State.popResponse (s : State) : State :=
  match s.q with
  | [] => s
  | r :: rest => { s with q := rest, delivered := s.delivered ++ [r] }

/-- `respond` (R10): the transaction's record goes to the tail of `Q` where `Accept` is enabled;
otherwise the request is not taken and waits at the port (R30, R31; log entry 12). -/
def respond (r : Response) (s : State) : Host.Outcome State Fault Refusal :=
  if canAccept s then .next (s.pushResponse r) else .next s

/-- The record of `raise NegativeInput()` (R10, R130, R133). -/
def raiseNegativeInput (surf : Code) : Response := ⟨.neg, surf, bv256 0⟩

/-- The record of `raise Overflow()` (R10, R130, R133). -/
def raiseOverflow (surf : Code) : Response := ⟨.ovf, surf, bv256 0⟩

/-- The record of `raise IllegalCommand()` (R10, R130, R134). -/
def raiseIllegalCommand (surf : Code) : Response := ⟨.ill, surf, bv256 0⟩

/-- Deliver records until there is room for one more; used only to place a command (log entry 11). -/
def State.makeRoom (s : State) : State :=
  if hasRoom s.q then s
  else
    let n := s.q.length - Config.depthPred
    { s with q := s.q.drop n, delivered := s.delivered ++ s.q.take n }

end Sys2Proof.Machine
end

