-- ==== Sys2Proof/Machine/Rom.lean ====
section
/-! DEFINITION. The constant ROM (10_state.md R22) and the fixed constants of the datapath
(40_constants.md R80 to R87). The ROM is fixed for all time, so it is a function and no part of State. -/

namespace Sys2Proof.Machine

/-- `SCALE`, the scale factor 10^18 (R87). -/
def scale : Nat := 1000000000000000000

/-- `SQRT_MAX_INPUT`, the literal of R83, inclusive (C1). -/
def sqrtMaxInput : Nat := 57896044618658097711785492504343953926634992332820282019729

/-- `E_RAW` (R84); the value is general knowledge of the spec's writer (log entry 14). -/
def eRaw : Word := 0x00000000000000000000000000000000000000000000000025b946ebc0b36173#256

/-- `PI_RAW` (R84); the value is general knowledge of the spec's writer (log entry 14). -/
def piRaw : Word := 0x0000000000000000000000000000000000000000000000002b992ddfa23249d6#256

/-- `ROM[k]`, the words of R22. `MIN_SD59x18` is general knowledge of the spec's writer (log entry 13). -/
def rom : ConstName → Word
  | .maxSD59x18 => 0x7fffffffffffffffffffffffffffffffffffffffffffffffffffffffffffffff#256
  | .minSD59x18 => 0x8000000000000000000000000000000000000000000000000000000000000000#256
  | .maxWholeSD59x18 => 0x7ffffffffffffffffffffffffffffffffffffffffffffffff5023c9904400000#256
  | .e => eRaw
  | .pi => piRaw
  | .sqrtMaxInput => 0x0000000000000009392ee8e921d5d073aff322e62439fcf32d7f344649470f91#256

end Sys2Proof.Machine
end

