-- ==== Sys2Proof/Machine/Const.lean ====
section
/-! DEFINITION. The constant reads (44_const_read.md). -/

namespace Sys2Proof.Machine

/-- A CONST command yields `(OK, s, ROM[k])` and ignores its operand (R170). -/
def constRecord (c : ConstName) (surf : Code) : Response := ⟨.ok, surf, rom c⟩

/-- CONST.RAW.MAX_SD59x18 (R171). -/
def execConstRawMax (_x : Word) (s : State) : Host.Outcome State Fault Refusal :=
  respond (constRecord .maxSD59x18 surfRaw) s

/-- CONST.TYPED.MAX_SD59x18 (R172). -/
def execConstTypedMax (_x : Word) (s : State) : Host.Outcome State Fault Refusal :=
  respond (constRecord .maxSD59x18 surfTyped) s

/-- CONST.RAW.MIN_SD59x18 (R173). -/
def execConstRawMin (_x : Word) (s : State) : Host.Outcome State Fault Refusal :=
  respond (constRecord .minSD59x18 surfRaw) s

/-- CONST.TYPED.MIN_SD59x18 (R174). -/
def execConstTypedMin (_x : Word) (s : State) : Host.Outcome State Fault Refusal :=
  respond (constRecord .minSD59x18 surfTyped) s

/-- CONST.RAW.MAX_WHOLE_SD59x18 (R175). -/
def execConstRawMaxWhole (_x : Word) (s : State) : Host.Outcome State Fault Refusal :=
  respond (constRecord .maxWholeSD59x18 surfRaw) s

/-- CONST.TYPED.MAX_WHOLE_SD59x18 (R176). -/
def execConstTypedMaxWhole (_x : Word) (s : State) : Host.Outcome State Fault Refusal :=
  respond (constRecord .maxWholeSD59x18 surfTyped) s

/-- CONST.RAW.E (R177). -/
def execConstRawE (_x : Word) (s : State) : Host.Outcome State Fault Refusal :=
  respond (constRecord .e surfRaw) s

/-- CONST.TYPED.E (R178). -/
def execConstTypedE (_x : Word) (s : State) : Host.Outcome State Fault Refusal :=
  respond (constRecord .e surfTyped) s

/-- CONST.RAW.PI (R179). -/
def execConstRawPi (_x : Word) (s : State) : Host.Outcome State Fault Refusal :=
  respond (constRecord .pi surfRaw) s

/-- CONST.TYPED.PI (R180). -/
def execConstTypedPi (_x : Word) (s : State) : Host.Outcome State Fault Refusal :=
  respond (constRecord .pi surfTyped) s

/-- CONST.RAW.SQRT_MAX_INPUT (R181). -/
def execConstRawSqrtMaxInput (_x : Word) (s : State) : Host.Outcome State Fault Refusal :=
  respond (constRecord .sqrtMaxInput surfRaw) s

/-- CONST.TYPED.SQRT_MAX_INPUT (R182). -/
def execConstTypedSqrtMaxInput (_x : Word) (s : State) : Host.Outcome State Fault Refusal :=
  respond (constRecord .sqrtMaxInput surfTyped) s

end Sys2Proof.Machine
end

