-- ==== Sys2Proof/Machine/Isqrt.lean ====
section
/-! DEFINITION. The integer square root (41_isqrt.md). -/

namespace Sys2Proof.Machine

/-- The greatest number that agrees with `r` above bit `n` and whose square is at most `m`, found one
bit at a time from bit `n - 1` down. -/
def isqrtBits : Nat → Nat → Nat → Nat
  | 0, _, r => r
  | n + 1, m, r =>
    if (r + 2 ^ n) * (r + 2 ^ n) ≤ m then isqrtBits n m (r + 2 ^ n) else isqrtBits n m r

/-- `ISQRT(m)` for `m < 2^256`: the greatest `r < 2^128` with `r * r ≤ m`, that is, the floor of the
square root (R90, R92; log entry 15). -/
def isqrt (m : Nat) : Nat := isqrtBits 128 m 0

/-- ISQRT.RAW (R91). -/
def execIsqrtRaw (x : Word) (s : State) : Host.Outcome State Fault Refusal :=
  respond ⟨.ok, surfRaw, bv256 (isqrt (uint x))⟩ s

/-! ### The reference algorithm of R93, non-normative -/

/-- Its first loop: the highest power of 4 that is at most `op`, or 0. -/
def isqrtRefStart : Nat → Nat → Nat → Nat
  | 0, _, one => one
  | fuel + 1, op, one => if one > op then isqrtRefStart fuel op (one / 4) else one

/-- Its second loop. -/
def isqrtRefLoop : Nat → Nat → Nat → Nat → Nat
  | 0, _, res, _ => res
  | fuel + 1, op, res, one =>
    if one = 0 then res
    else if op ≥ res + one then isqrtRefLoop fuel (op - (res + one)) (res / 2 + one) (one / 4)
    else isqrtRefLoop fuel op (res / 2) (one / 4)

/-- `ISQRT_REF(m)` (R93); 128 rounds of either loop are enough. -/
def isqrtRef (m : Nat) : Nat := isqrtRefLoop 128 m 0 (isqrtRefStart 128 m (2 ^ 254))

end Sys2Proof.Machine
end

