-- ==== Sys2Proof/Machine/Sqrt.lean ====
section
/-! DEFINITION. The signed fixed-point square root (42_sqrt.md). -/

namespace Sys2Proof.Machine

/-- Step 4's product, an exact 256-bit unsigned value (R100, R106). -/
def rescale (x : Int) : Nat := x.toNat * scale

/-- `SQRT_KERNEL(x, surf)`, its checks in order: zero, sign, overflow on the input (R100, R135). -/
def sqrtKernel (x : Int) (surf : Code) : Response :=
  if x = 0 then ⟨.ok, surf, bv256 0⟩
  else if x < 0 then raiseNegativeInput surf
  else if x > sqrtMaxInput then raiseOverflow surf
  else ⟨.ok, surf, bv256 (isqrt (rescale x))⟩

/-- SQRT.RAW (R101). -/
def execSqrtRaw (x : Word) (s : State) : Host.Outcome State Fault Refusal :=
  respond (sqrtKernel (sint x) surfRaw) s

/-- SQRT.TYPED (R102), over the same kernel (R121). -/
def execSqrtTyped (x : Word) (s : State) : Host.Outcome State Fault Refusal :=
  respond (sqrtKernel (sint x) surfTyped) s

end Sys2Proof.Machine
end

