-- ==== Sys2Proof/Machine/Dispatch.lean ====
section
/-! DEFINITION. One arm per command; each calls its meaning. -/

namespace Sys2Proof.Machine

def exec (i : Instr) (s : State) : Host.Outcome State Fault Refusal :=
  match i with
  | .sqrtRaw x => Sys2Proof.Machine.execSqrtRaw x s
  | .sqrtTyped x => Sys2Proof.Machine.execSqrtTyped x s
  | .isqrtRaw x => Sys2Proof.Machine.execIsqrtRaw x s
  | .constRawMax x => Sys2Proof.Machine.execConstRawMax x s
  | .constTypedMax x => Sys2Proof.Machine.execConstTypedMax x s
  | .constRawMin x => Sys2Proof.Machine.execConstRawMin x s
  | .constTypedMin x => Sys2Proof.Machine.execConstTypedMin x s
  | .constRawMaxWhole x => Sys2Proof.Machine.execConstRawMaxWhole x s
  | .constTypedMaxWhole x => Sys2Proof.Machine.execConstTypedMaxWhole x s
  | .constRawE x => Sys2Proof.Machine.execConstRawE x s
  | .constTypedE x => Sys2Proof.Machine.execConstTypedE x s
  | .constRawPi x => Sys2Proof.Machine.execConstRawPi x s
  | .constTypedPi x => Sys2Proof.Machine.execConstTypedPi x s
  | .constRawSqrtMaxInput x => Sys2Proof.Machine.execConstRawSqrtMaxInput x s
  | .constTypedSqrtMaxInput x => Sys2Proof.Machine.execConstTypedSqrtMaxInput x s

end Sys2Proof.Machine
end

