-- ==== Sys2Proof/WellFormed.lean ====
section
/-! DEFINITION. Which functions are legal on which surface (30_encoding.md R62, R64 (d)). A command's
other fields cannot be ill formed: `Instr` has a constructor for each legal command word only, and
every 256-bit operand is legal (R63). -/

namespace Sys2Proof

/-- The "legal on" column of R62: ISQRT on RAW only, every other function on both surfaces. -/
def Func.legalOn : Func → Surface → Bool
  | .isqrt, .typed => false
  | .isqrt, .raw => true
  | .sqrt, _ => true
  | .const _, _ => true

/-- A command is well formed when its function is legal on its surface. -/
def Instr.wellFormed (i : Instr) : Bool := i.func.legalOn i.surface

end Sys2Proof
end

