-- ==== Sys2Proof/Decode.lean ====
section
/-! DEFINITION. The decoder (30_encoding.md R60 to R67), total on every command word and on any bytes,
refusing by name; after it the encoder, written from the table of R65. -/

namespace Sys2Proof

/-- Why a request is not a legal command: the cases of R64, and two of the byte layout. -/
inductive DecodeError where
  /-- R64 (a): SURF is `10` or `11`. -/
  | reservedSurface
  /-- R64 (b): RSV is not `00`. -/
  | reservedBits
  /-- R64 (c): FUNC is `0x2` to `0x7`, `0xE` or `0xF`. -/
  | reservedFunction
  /-- R64 (d): ISQRT on the TYPED surface. -/
  | isqrtOnTyped
  /-- A byte sequence that is not one command byte and 32 operand bytes (R42, R67). -/
  | wrongLength
  deriving DecidableEq, Repr

/-- `CMD[7:6]` (R60). -/
def surfField (cmd : Byte) : Code := cmd.extractLsb' 6 2

/-- `CMD[5:4]` (R60). -/
def rsvField (cmd : Byte) : BitVec 2 := cmd.extractLsb' 4 2

/-- `CMD[3:0]` (R60). -/
def funcField (cmd : Byte) : BitVec 4 := cmd.extractLsb' 0 4

/-- The table of R61. -/
def surfaceOf (surf : Code) : Option Surface :=
  if surf = 0b00#2 then some .raw
  else if surf = 0b01#2 then some .typed
  else none

/-- The table of R62. -/
def funcOf (func : BitVec 4) : Option Func :=
  if func = 0x0#4 then some .sqrt
  else if func = 0x1#4 then some .isqrt
  else if func = 0x8#4 then some (.const .maxSD59x18)
  else if func = 0x9#4 then some (.const .minSD59x18)
  else if func = 0xA#4 then some (.const .maxWholeSD59x18)
  else if func = 0xB#4 then some (.const .e)
  else if func = 0xC#4 then some (.const .pi)
  else if func = 0xD#4 then some (.const .sqrtMaxInput)
  else none

/-- The command of a function on a surface; none for ISQRT on TYPED (R64 (d)). -/
def instrOf (surface : Surface) (func : Func) (x : Word) : Option Instr :=
  match surface, func with
  | .raw, .sqrt => some (.sqrtRaw x)
  | .typed, .sqrt => some (.sqrtTyped x)
  | .raw, .isqrt => some (.isqrtRaw x)
  | .typed, .isqrt => none
  | .raw, .const .maxSD59x18 => some (.constRawMax x)
  | .typed, .const .maxSD59x18 => some (.constTypedMax x)
  | .raw, .const .minSD59x18 => some (.constRawMin x)
  | .typed, .const .minSD59x18 => some (.constTypedMin x)
  | .raw, .const .maxWholeSD59x18 => some (.constRawMaxWhole x)
  | .typed, .const .maxWholeSD59x18 => some (.constTypedMaxWhole x)
  | .raw, .const .e => some (.constRawE x)
  | .typed, .const .e => some (.constTypedE x)
  | .raw, .const .pi => some (.constRawPi x)
  | .typed, .const .pi => some (.constTypedPi x)
  | .raw, .const .sqrtMaxInput => some (.constRawSqrtMaxInput x)
  | .typed, .const .sqrtMaxInput => some (.constTypedSqrtMaxInput x)

/-- The surface and the function that a command word selects: all eight bits of `CMD`, in the order of
R66's checks, and nothing else (R67). -/
def selectFunction (cmd : Byte) : Except DecodeError (Surface × Func) :=
  match surfaceOf (surfField cmd) with
  | none => .error .reservedSurface
  | some surface =>
    if rsvField cmd = 0b00#2 then
      match funcOf (funcField cmd) with
      | none => .error .reservedFunction
      | some func => .ok (surface, func)
    else .error .reservedBits

/-- The decoder (R66, R67). -/
def decodeCommand (c : Command) : Except DecodeError Instr :=
  match selectFunction c.cmd with
  | .error e => .error e
  | .ok (surface, func) =>
    match instrOf surface func c.x with
    | none => .error .isqrtOnTyped
    | some i => .ok i

/-- The command word of each legal command (R65). -/
def commandWord : Instr → Byte
  | .sqrtRaw _ => 0x00#8
  | .isqrtRaw _ => 0x01#8
  | .constRawMax _ => 0x08#8
  | .constRawMin _ => 0x09#8
  | .constRawMaxWhole _ => 0x0A#8
  | .constRawE _ => 0x0B#8
  | .constRawPi _ => 0x0C#8
  | .constRawSqrtMaxInput _ => 0x0D#8
  | .sqrtTyped _ => 0x40#8
  | .constTypedMax _ => 0x48#8
  | .constTypedMin _ => 0x49#8
  | .constTypedMaxWhole _ => 0x4A#8
  | .constTypedE _ => 0x4B#8
  | .constTypedPi _ => 0x4C#8
  | .constTypedSqrtMaxInput _ => 0x4D#8

/-- The encoder: the request that names a command (R60, R65). -/
def encode (i : Instr) : Command := ⟨commandWord i, i.operand⟩

/-! ### The byte layout at the host boundary (20_memory.md R42; log entry 16) -/

/-- The `n` low bytes of a number, most significant first. -/
def bigEndian : Nat → Nat → List Byte
  | 0, _ => []
  | n + 1, v => BitVec.ofNat 8 (v / 256 ^ n) :: bigEndian n v

/-- A port word as 32 bytes, byte 0 being bits [255:248] (R42). -/
def wordToBytes (v : Word) : List Byte := bigEndian 32 v.toNat

/-- The number whose bytes are listed, most significant first. -/
def ofBigEndian (bytes : List Byte) : Nat := bytes.foldl (fun acc b => acc * 256 + b.toNat) 0

/-- The request that 33 bytes spell: the command byte, then the operand word (R42, R60). -/
def commandOfBytes : List Byte → Option Command
  | [] => none
  | cmd :: rest => if rest.length = 32 then some ⟨cmd, BitVec.ofNat 256 (ofBigEndian rest)⟩ else none

/-- The decoder on bytes, total. -/
def decodeBytes (bytes : List Byte) : Except DecodeError Instr :=
  match commandOfBytes bytes with
  | none => .error .wrongLength
  | some c => decodeCommand c

/-- The encoder's bytes. -/
def encodeBytes (i : Instr) : List Byte := commandWord i :: wordToBytes i.operand

/-- The request whose bits are `w`, numbered as the opcode table numbers them: bits 7 to 0 are `CMD`,
and the second word `X` counts on from bit 8; every bit from `nbits` on is 0 (log entry 16). -/
def commandOfTableWord (nbits w : Nat) : Command :=
  ⟨BitVec.ofNat 8 (w % 2 ^ nbits), BitVec.ofNat 256 (w % 2 ^ nbits / 2 ^ 8)⟩

/-- The instruction the decoder reads from a row of the opcode table. -/
def decodeTableWord (nbits w : Nat) : Option Instr :=
  match decodeCommand (commandOfTableWord nbits w) with
  | .ok i => some i
  | .error _ => none

end Sys2Proof
end

