-- ==== Sys2Proof/Machine/Illegal.lean ====
section
/-! DEFINITION. The response to an illegal command word (60_exceptions.md R132, R134). -/

namespace Sys2Proof.Machine

/-- An illegal command executes nothing; its record is `(ILL, CMD[7:6], 0)` (R64, R122, R134). -/
def execIllegal (cmd : Byte) (s : State) : Host.Outcome State Fault Refusal :=
  respond (raiseIllegalCommand (surfField cmd)) s

end Sys2Proof.Machine
end

