-- ==== Sys2Proof/Machine/Ports.lean ====
section
/-! DEFINITION. The ports, the two handshakes and what a rising edge does around a command
(10_state.md R28 to R33, 70_reset_and_hazards.md R150, R153). -/

namespace Sys2Proof.Machine

/-! ### Outputs -/

/-- `req_ready`: 1 only when `|Q| < DEPTH`, and then after finitely many cycles; while `RST = 1` it is
unspecified, and the model draws it in the same way (R30, R33, I7; log entry 3). -/
def reqReady (s : State) : Bool := hasRoom s.q && s.readyWait == 0

/-- `rsp_valid`: 0 when `Q` is empty and while `RST = 1` (R30, R33, R150). -/
def rspValid (s : State) : Bool := !s.rst && !s.q.isEmpty && s.validWait == 0

/-- The record on the response ports: the head of `Q` while `rsp_valid = 1`, otherwise nothing the
host may use (R30). -/
def presented (s : State) : Option Response := if rspValid s then s.q.head? else none

/-- `rsp_status` (R29, R30). -/
def rspStatus (s : State) : Code :=
  match presented s with
  | some r => statusCode r.status
  | none => Config.idleStatus s.latch

/-- `rsp_surf` (R29, R30). -/
def rspSurf (s : State) : Code :=
  match presented s with
  | some r => r.surf
  | none => Config.idleSurf s.latch

/-- `rsp_result` (R29, R30). -/
def rspResult (s : State) : Word :=
  match presented s with
  | some r => r.result
  | none => Config.idleResult s.latch

/-! ### Inputs -/

/-- The request on the request ports (R30). -/
def Pins.request (p : Pins) : Command := ⟨p.reqCmd, p.reqX⟩

/-- What an idle host drives once the listed samples are used up: it goes on holding a request it has
raised, takes no response and leaves `rst` low (log entry 9). -/
def idlePins (s : State) : Pins :=
  match s.held with
  | some c => ⟨false, true, c.cmd, c.x, false⟩
  | none => ⟨false, false, 0#8, 0#256, false⟩

/-- The sample of the next rising edge. -/
def pinsNow (s : State) : Pins :=
  match s.pins with
  | p :: _ => p
  | [] => idlePins s

/-- The host changes or withdraws a request it must hold (R30, D32, I13). A reset edge releases the
hold, since Reset is always enabled (R31; log entry 8). -/
def breaksHold (s : State) (p : Pins) : Bool :=
  match s.held with
  | none => false
  | some c => !p.rst && !(p.reqValid && p.request == c)

/-- A request transfer (R30). -/
def requestTransfer (s : State) (p : Pins) : Bool := !p.rst && p.reqValid && reqReady s

/-- A response transfer (R30). -/
def responseTransfer (s : State) (p : Pins) : Bool := !p.rst && rspValid s && p.rspReady

/-! ### A rising edge -/

/-- The internal latches after an edge (R33). -/
def latchAfter (s : State) (p : Pins) : Nat :=
  Config.latchNext s.latch p.rst p.reqValid p.reqCmd p.reqX p.rspReady

/-- An edge with `rst = 1` (R150): `Q` is emptied, nothing is transferred, a new run begins (R159). -/
def State.resetEdge (s : State) (p : Pins) : State :=
  { s with
    q := [], rst := true, validWait := 0, readyWait := Config.readyWait (latchAfter s p),
    latch := latchAfter s p, held := none, pins := s.pins.tail, accepted := [], delivered := [] }

/-- The part of an edge with `rst = 0` that comes before the command runs: the sample is taken, and a
request not taken at this edge must be held (R28, R30). -/
def State.openEdge (s : State) (p : Pins) : State :=
  { s with
    rst := false, pins := s.pins.tail,
    held := if p.reqValid && !requestTransfer s p then some p.request else none,
    accepted := if requestTransfer s p then s.accepted ++ [p.request] else s.accepted }

/-- The wait for `rsp_valid` after an edge: a new head of `Q` draws a latency, an old one waits on
(R153, R158; log entry 2). -/
def nextValidWait (s : State) (p : Pins) : Nat :=
  if s.q.isEmpty || responseTransfer s p then Config.latency (latchAfter s p) - 1 else s.validWait - 1

/-- The wait for `req_ready` after an edge: a wait under way goes on, otherwise a new one is drawn
(R30, R153; log entry 3). -/
def nextReadyWait (s : State) (p : Pins) : Nat :=
  if s.rst || !hasRoom s.q || reqReady s then Config.readyWait (latchAfter s p) else s.readyWait - 1

/-- The part of an edge that comes after the command ran, from `s` before the edge and `u` after the
command: the response transfer, and the draws (R30; log entry 6). -/
def State.closeEdge (s : State) (p : Pins) (u : State) : State :=
  { (if responseTransfer s p then u.popResponse else u) with
    validWait := nextValidWait s p, readyWait := nextReadyWait s p, latch := latchAfter s p }

/-- `closeEdge` on a command's outcome. -/
def finishEdge (s : State) (p : Pins) : Host.Outcome State Fault Refusal → Host.Outcome State Fault Refusal
  | .next u => .next (s.closeEdge p u)
  | .fault r => .fault r
  | .refused r => .refused r

end Sys2Proof.Machine
end

