-- ==== Sys2Proof/Machine/Edge.lean ====
section
/-! DEFINITION. A rising edge of `clk` (10_state.md R28, R30): reset, or the transfers of that edge with
the command a transferred request names; and placing a request for the next edge. -/

namespace Sys2Proof.Machine

/-- The command a request names, or the response to an illegal one (30_encoding.md R66). -/
def runCommand (c : Command) (s : State) : Host.Outcome State Fault Refusal :=
  match decodeCommand c with
  | .ok i => exec i s
  | .error _ => execIllegal c.cmd s

/-- A rising edge: a broken hold is refused (I13), `rst = 1` resets (R150), a request transfer runs its
command, and any other edge only moves the handshakes on (R30). -/
def edge (s : State) : Host.Outcome State Fault Refusal :=
  if breaksHold s (pinsNow s) then .refused .requestNotHeld
  else if (pinsNow s).rst then .next (s.resetEdge (pinsNow s))
  else if requestTransfer s (pinsNow s) then
    finishEdge s (pinsNow s) (runCommand (pinsNow s).request (s.openEdge (pinsNow s)))
  else .next (s.closeEdge (pinsNow s) (s.openEdge (pinsNow s)))

/-- The host puts a request on the request ports for the next rising edge, at which `req_ready` is up and
`Q` has room (log entry 11). -/
def State.placeRequest (s : State) (c : Command) : State :=
  { s.makeRoom with
    readyWait := 0, held := none, pins := ⟨false, true, c.cmd, c.x, false⟩ :: s.pins }

end Sys2Proof.Machine
end

