-- ==== Sys2Proof/Machine/Step.lean ====
section
/-! DEFINITION. One step: one rising edge of `clk`. The engine fetches nothing (10_state.md R27); a
command is delivered on the request channel and runs at its request transfer (R30, R52). -/

namespace Sys2Proof.Machine

/-- One step is one rising edge. -/
def step (s : State) : Host.Outcome State Fault Refusal := edge s

/-- `s` with the request of a table word placed so that the next step runs it (log entry 11). -/
def State.withFetchWord (s : State) (nbits w : Nat) : State :=
  s.placeRequest (commandOfTableWord nbits w)

end Sys2Proof.Machine
end

