-- ==== Sys2Proof/Machine/Assembler.lean ====
section
/-! DEFINITION. The assembler, the listing and the decimal display (30_encoding.md R69 to R72,
00_scope.md R11). These are the host's tools, not the engine's. -/

namespace Sys2Proof.Machine

/-- Why the assembler refuses a line (R69, R70). -/
inductive AsmError where
  /-- The text is no line of the syntax. -/
  | notALine
  /-- A decimal integer outside -2^255 .. 2^256-1. -/
  | integerOutOfRange
  /-- No hex digit, or more than 64. -/
  | badHexLength
  /-- More than 18 digits after the point. -/
  | tooManyFractionDigits
  /-- A fixed-point value outside -2^255 .. 2^255-1. -/
  | fixedPointOutOfRange
  /-- `isqrt.typed`. -/
  | isqrtOnTyped
  deriving DecidableEq, Repr

/-! ### Literals (R70) -/

/-- The number that digits spell, most significant first. -/
def ofDigits (base : Nat) (digits : List Nat) : Nat := digits.foldl (fun acc d => acc * base + d) 0

/-- A raw integer, refused outside -2^255 .. 2^256-1. -/
def integerWord (n : Int) : Except AsmError Word :=
  if -2 ^ 255 ≤ n ∧ n < 2 ^ 256 then .ok (bv256 n) else .error .integerOutOfRange

/-- The raw value of `fp(<decimal>)` with at most 18 digits after the point: `d * 10^18`, exact. -/
def fixedPointRaw (negative : Bool) (whole : Nat) (fraction : List Nat) : Int :=
  let magnitude : Int := (whole * scale + ofDigits 10 fraction * 10 ^ (18 - fraction.length) : Nat)
  if negative then -magnitude else magnitude

/-- The word a literal emits, or why it is refused. -/
def literalWord : Literal → Except AsmError Word
  | .int n => integerWord n
  | .hex digits =>
    if digits.length = 0 ∨ 64 < digits.length then .error .badHexLength
    else .ok (bv256 (ofDigits 16 digits))
  | .fp negative whole fraction =>
    if 18 < fraction.length then .error .tooManyFractionDigits
    else
      let n := fixedPointRaw negative whole fraction
      if -2 ^ 255 ≤ n ∧ n < 2 ^ 255 then .ok (bv256 n) else .error .fixedPointOutOfRange
  | .name c => .ok (rom c)
  | .offset c n => integerWord (sint (rom c) + n)

/-! ### Lines (R69, R71) -/

/-- A command word with the word of a literal. -/
def withLiteral (cmd : Byte) (x : Literal) : Except AsmError Command :=
  match literalWord x with
  | .ok w => .ok ⟨cmd, w⟩
  | .error e => .error e

/-- The FUNC code that a constant name selects (R69). -/
def constFunc : ConstName → BitVec 4
  | .maxSD59x18 => 0x8#4
  | .minSD59x18 => 0x9#4
  | .maxWholeSD59x18 => 0xA#4
  | .e => 0xB#4
  | .pi => 0xC#4
  | .sqrtMaxInput => 0xD#4

/-- The SURF code of a surface (R61). -/
def surfCode : Surface → Code
  | .raw => 0b00#2
  | .typed => 0b01#2

/-- A command word from its fields, RSV being `00` (R60). -/
def fieldsWord (surf : Code) (func : BitVec 4) : Byte := surf ++ 0b00#2 ++ func

/-- The request a line emits, or why it is refused (R69 to R71). -/
def assemble : AsmLine → Except AsmError Command
  | .sqrt surface x => withLiteral (fieldsWord (surfCode surface) 0x0#4) x
  | .isqrt .raw x => withLiteral (fieldsWord (surfCode .raw) 0x1#4) x
  | .isqrt .typed _ => .error .isqrtOnTyped
  | .const surface c => .ok ⟨fieldsWord (surfCode surface) (constFunc c), bv256 0⟩
  | .raw cmd x => withLiteral cmd x

/-! ### Text (log entry 18) -/

/-- The value of a decimal digit. -/
def decDigit (ch : Char) : Option Nat :=
  if '0' ≤ ch ∧ ch ≤ '9' then some (ch.toNat - '0'.toNat) else none

/-- The value of a hexadecimal digit of either case. -/
def hexDigit (ch : Char) : Option Nat :=
  if 'a' ≤ ch ∧ ch ≤ 'f' then some (ch.toNat - 'a'.toNat + 10)
  else if 'A' ≤ ch ∧ ch ≤ 'F' then some (ch.toNat - 'A'.toNat + 10)
  else decDigit ch

/-- The digits that characters spell, every one of which must be a digit. -/
def digitsOf (digit : Char → Option Nat) : List Char → Option (List Nat)
  | [] => some []
  | ch :: rest =>
    match digit ch, digitsOf digit rest with
    | some d, some ds => some (d :: ds)
    | _, _ => none

/-- A decimal number with at least one digit. -/
def natOf (cs : List Char) : Option Nat :=
  if cs.isEmpty then none else (digitsOf decDigit cs).map (ofDigits 10)

/-- A decimal integer, optionally negative. -/
def intOf : List Char → Option Int
  | '-' :: cs => (natOf cs).map (fun n => -(n : Int))
  | cs => (natOf cs).map (fun n => (n : Int))

/-- The six constant names (R69), spelled as the spec spells them. -/
def constNameOf (cs : List Char) : Option ConstName :=
  if cs = ['M', 'A', 'X', '_', 'S', 'D', '5', '9', 'x', '1', '8'] then some .maxSD59x18
  else if cs = ['M', 'I', 'N', '_', 'S', 'D', '5', '9', 'x', '1', '8'] then some .minSD59x18
  else if cs = ['M', 'A', 'X', '_', 'W', 'H', 'O', 'L', 'E', '_', 'S', 'D', '5', '9', 'x', '1', '8'] then
    some .maxWholeSD59x18
  else if cs = ['E'] then some .e
  else if cs = ['P', 'I'] then some .pi
  else if cs = ['S', 'Q', 'R', 'T', '_', 'M', 'A', 'X', '_', 'I', 'N', 'P', 'U', 'T'] then some .sqrtMaxInput
  else none

/-- The inside of `fp( )` after its sign: an integer part and, after a point, the fraction's digits. -/
def fpOf (negative : Bool) (cs : List Char) : Option Literal :=
  match cs.dropWhile (· != '.') with
  | [] => (natOf cs).map (fun n => .fp negative n [])
  | _ :: fraction =>
    match natOf (cs.takeWhile (· != '.')), digitsOf decDigit fraction with
    | some n, some ds => if ds.isEmpty then none else some (.fp negative n ds)
    | _, _ => none

/-- A literal from its text, spaces taken out (R70). In `<name> + <integer>` and `<name> - <integer>` the
spec does not say which integers are meant; the model's choice is a decimal one, not a `0x` one, which may
carry its own minus sign, as in `E + -1` (log entry 18). -/
def literalOf : List Char → Option Literal
  | '0' :: 'x' :: cs => (digitsOf hexDigit cs).map .hex
  | 'f' :: 'p' :: '(' :: cs =>
    if cs.getLast? = some ')' then
      match cs.dropLast with
      | '-' :: ds => fpOf true ds
      | ds => fpOf false ds
    else none
  | cs =>
    match intOf cs with
    | some n => some (.int n)
    | none =>
      let name := cs.takeWhile (fun ch => ch != '+' && ch != '-')
      match constNameOf name, cs.dropWhile (fun ch => ch != '+' && ch != '-') with
      | some c, [] => some (.name c)
      | some c, '+' :: ds => (intOf ds).map (.offset c)
      | some c, _ :: ds => (intOf ds).map (fun n => .offset c (-n))
      | none, _ => none

/-- The functions of R69. -/
inductive AsmFunc where
  | sqrt
  | isqrt
  | const
  deriving DecidableEq, Repr

/-- `<func>` (R69), in lower case. -/
def asmFuncOf (cs : List Char) : Option AsmFunc :=
  if cs = ['s', 'q', 'r', 't'] then some .sqrt
  else if cs = ['i', 's', 'q', 'r', 't'] then some .isqrt
  else if cs = ['c', 'o', 'n', 's', 't'] then some .const
  else none

/-- `.<surf>` (R69) in lower case, or nothing, which stands for `raw` (R71). -/
def asmSurfaceOf (cs : List Char) : Option Surface :=
  if cs = [] ∨ cs = ['.', 'r', 'a', 'w'] then some .raw
  else if cs = ['.', 't', 'y', 'p', 'e', 'd'] then some .typed
  else none

/-- The command byte of `.cmd` (R71), in hex or in decimal. -/
def commandByteOf (cs : List Char) : Option Byte :=
  match literalOf cs with
  | some (.hex ds) => if ds.length = 1 ∨ ds.length = 2 then some (BitVec.ofNat 8 (ofDigits 16 ds)) else none
  | some (.int n) => if 0 ≤ n ∧ n < 256 then some (BitVec.ofNat 8 n.toNat) else none
  | _ => none

/-- A mnemonic in lower case with its operand, spaces taken out (R69, R71). -/
def lineOf (mnemonic operand : List Char) : Option AsmLine :=
  if mnemonic = ['.', 'c', 'm', 'd'] then
    match commandByteOf (operand.takeWhile (· != ',')), operand.dropWhile (· != ',') with
    | some cmd, _ :: op => (literalOf op).map (.raw cmd)
    | _, _ => none
  else
    match asmFuncOf (mnemonic.takeWhile (· != '.')), asmSurfaceOf (mnemonic.dropWhile (· != '.')) with
    | some .sqrt, some surface => (literalOf operand).map (.sqrt surface)
    | some .isqrt, some surface => (literalOf operand).map (.isqrt surface)
    | some .const, some surface => (constNameOf operand).map (.const surface)
    | _, _ => none

/-- A line of text; mnemonics are case-insensitive (R69). -/
def parseLine (text : List Char) : Option AsmLine :=
  let line := text.dropWhile (· == ' ')
  lineOf ((line.takeWhile (· != ' ')).map Char.toLower) ((line.dropWhile (· != ' ')).filter (· != ' '))

/-- The assembler on text. -/
def assembleText (text : List Char) : Except AsmError Command :=
  match parseLine text with
  | some line => assemble line
  | none => .error .notALine

/-! ### Listing and display (R72, R11) -/

/-- A digit in lower case. -/
def digitChar (d : Nat) : Char :=
  if d < 10 then Char.ofNat ('0'.toNat + d) else Char.ofNat ('a'.toNat + (d - 10))

/-- A number in `n` digits. -/
def fixedDigits (base : Nat) : Nat → Nat → List Char
  | 0, _ => []
  | n + 1, v => fixedDigits base n (v / base) ++ [digitChar (v % base)]

/-- `CMD : X`: two hex digits, a colon, 64 hex digits (R72). -/
def listing (c : Command) : List Char :=
  fixedDigits 16 2 c.cmd.toNat ++ [' ', ':', ' '] ++ fixedDigits 16 64 c.x.toNat

/-- A listing line with its mnemonic as a comment (R72). -/
def listingWithComment (c : Command) (mnemonic : List Char) : List Char :=
  listing c ++ [' ', ' ', ';', ' '] ++ mnemonic

/-- The request of a listing line; what follows the operand is a comment (R72). -/
def parseListing (text : List Char) : Option Command :=
  match digitsOf hexDigit (text.take 2), (text.drop 2).take 3, digitsOf hexDigit ((text.drop 5).take 64) with
  | some cmd, [' ', ':', ' '], some x =>
    if cmd.length = 2 ∧ x.length = 64 then
      some ⟨BitVec.ofNat 8 (ofDigits 16 cmd), BitVec.ofNat 256 (ofDigits 16 x)⟩
    else none
  | _, _, _ => none

/-- `dec(n)`: the number `n / 10^18` with exactly 18 digits after the point (R11). -/
def dec (n : Int) : List Char :=
  (if n < 0 then ['-'] else []) ++ Nat.toDigits 10 (n.natAbs / scale) ++ ['.'] ++
    fixedDigits 10 18 (n.natAbs % scale)

end Sys2Proof.Machine
end

