-- ==== Sys2Proof/Machine/Record.lean ====
section
/-! DEFINITION. `Exec(CMD, X)` in the words of 30_encoding.md R66: the whole engine as one total function
of a request, written apart from the decoder and the dispatch, to which the two are compared. -/

namespace Sys2Proof.Machine

/-- `ROM[func]` for a FUNC code (R22, R62). -/
def romAt (func : BitVec 4) : Option Word :=
  if func = 0x8#4 then some (rom .maxSD59x18)
  else if func = 0x9#4 then some (rom .minSD59x18)
  else if func = 0xA#4 then some (rom .maxWholeSD59x18)
  else if func = 0xB#4 then some (rom .e)
  else if func = 0xC#4 then some (rom .pi)
  else if func = 0xD#4 then some (rom .sqrtMaxInput)
  else none

/-- `Exec(CMD, X)` (R66). -/
def execRecord (c : Command) : Response :=
  let surf := surfField c.cmd
  let rsv := rsvField c.cmd
  let func := funcField c.cmd
  if surf = 0b10#2 ∨ surf = 0b11#2 ∨ rsv ≠ 0b00#2 then raiseIllegalCommand surf
  else if func = 0x0#4 then sqrtKernel (sint c.x) surf
  else if func = 0x1#4 then
    if surf = 0b00#2 then ⟨.ok, surf, bv256 (isqrt (uint c.x))⟩ else raiseIllegalCommand surf
  else
    match romAt func with
    | some w => ⟨.ok, surf, w⟩
    | none => raiseIllegalCommand surf

end Sys2Proof.Machine
end

