-- ==== Sys2Proof/Machine/Transaction.lean ====
section
/-! DEFINITION. The spec's own step relation on `S = (Q, RST)` (10_state.md R31), and which of its steps
a rising edge takes. -/

namespace Sys2Proof.Machine

/-- `S = (Q, RST)` (R21). -/
structure Transact where
  q   : List Response
  rst : Bool
  deriving DecidableEq, Repr

/-- The three steps of R31, with what each takes in. -/
inductive Move where
  | accept (c : Command)
  | deliver
  | reset (level : Bool)
  deriving DecidableEq, Repr

/-- One step of R31: the state after it and what it outputs to the host, or none where it is not enabled. -/
def Move.take : Move → Transact → Option (Transact × List Response)
  | .accept c, t =>
    if t.rst = false ∧ t.q.length < Config.depth then some (⟨t.q ++ [execRecord c], t.rst⟩, []) else none
  | .deliver, ⟨r :: rest, false⟩ => some (⟨rest, false⟩, [r])
  | .deliver, _ => none
  | .reset level, t => some (⟨if level then [] else t.q, level⟩, [])

/-- Steps one after another, with all they output. -/
def takeMoves : List Move → Transact → Option (Transact × List Response)
  | [], t => some (t, [])
  | m :: ms, t =>
    match m.take t with
    | none => none
    | some (t', out) =>
      match takeMoves ms t' with
      | none => none
      | some (t'', out') => some (t'', out ++ out')

/-- `S` of a state. -/
def State.transact (s : State) : Transact := ⟨s.q, s.rst⟩

/-- The steps of R31 that a rising edge takes: Reset to the sampled level, then the transfers (R30;
log entry 6). -/
def edgeMoves (s : State) (p : Pins) : List Move :=
  .reset p.rst ::
    ((if requestTransfer s p then [.accept p.request] else []) ++
     (if responseTransfer s p then [.deliver] else []))

end Sys2Proof.Machine
end

