-- ==== Sys2Proof/Safety.lean ====
section
/-! DEFINITION. What holds of every state a run reaches (10_state.md R24, R31, 70_reset_and_hazards.md
R150, R159). -/

namespace Sys2Proof.Machine

/-- `|Q|` is at most `DEPTH` (R24); `Q` is empty while `RST = 1` (R150); and the responses delivered
since the last reset, followed by those still in `Q`, are the records of the requests accepted since
then, in order (R24, R159). -/
structure Inv (s : State) : Prop where
  bounded   : s.q.length ≤ Config.depth
  emptyInReset : s.rst = true → s.q = []
  inOrder   : s.delivered ++ s.q = s.accepted.map execRecord

end Sys2Proof.Machine
end

