-- ==== Sys2Proof/Certificates/Slice0/Obligations.lean ====
section
/-! DEFINITION. The statements about the model. Where a statement names a state a command leaves, it is
the state before with one record at the tail of `q` and every other field unchanged: the result, the
completion and the frame at once. "`Accept` is enabled" is `s.rst = false` and
`s.q.length < Config.depth` (10_state.md R31), for every capacity `Config.depth`, which has no body. -/

open Sys2Proof Sys2Proof.Machine

/-! ### Encoding -/

/-- For every well-formed command, decoding its 33 bytes, and decoding its number in the opcode table's
numbering, gives the command back with its whole operand. The byte layout is R42's with log entry 16. -/
def Obligations.EncodedCommandDecodesToItself : Prop :=
  ∀ i : Instr, i.wellFormed = true →
    decodeBytes (encodeBytes i) = .ok i ∧
    decodeTableWord 264 ((encode i).cmd.toNat + 2 ^ 8 * (encode i).x.toNat) = some i

/-- The other direction: a request that decodes is the encoding of the command it decodes to. -/
def Obligations.DecodedCommandEncodesBack : Prop :=
  ∀ (c : Command) (i : Instr), decodeCommand c = .ok i → encode i = c ∧ i.wellFormed = true

/-- R65: exactly these fifteen command words are legal, and each names the command of its row. -/
def Obligations.LegalCommandWordsAreTheFifteenOfTheTable : Prop :=
  (∀ x : Word,
    decodeCommand ⟨0x00#8, x⟩ = .ok (.sqrtRaw x) ∧
    decodeCommand ⟨0x01#8, x⟩ = .ok (.isqrtRaw x) ∧
    decodeCommand ⟨0x08#8, x⟩ = .ok (.constRawMax x) ∧
    decodeCommand ⟨0x09#8, x⟩ = .ok (.constRawMin x) ∧
    decodeCommand ⟨0x0A#8, x⟩ = .ok (.constRawMaxWhole x) ∧
    decodeCommand ⟨0x0B#8, x⟩ = .ok (.constRawE x) ∧
    decodeCommand ⟨0x0C#8, x⟩ = .ok (.constRawPi x) ∧
    decodeCommand ⟨0x0D#8, x⟩ = .ok (.constRawSqrtMaxInput x) ∧
    decodeCommand ⟨0x40#8, x⟩ = .ok (.sqrtTyped x) ∧
    decodeCommand ⟨0x48#8, x⟩ = .ok (.constTypedMax x) ∧
    decodeCommand ⟨0x49#8, x⟩ = .ok (.constTypedMin x) ∧
    decodeCommand ⟨0x4A#8, x⟩ = .ok (.constTypedMaxWhole x) ∧
    decodeCommand ⟨0x4B#8, x⟩ = .ok (.constTypedE x) ∧
    decodeCommand ⟨0x4C#8, x⟩ = .ok (.constTypedPi x) ∧
    decodeCommand ⟨0x4D#8, x⟩ = .ok (.constTypedSqrtMaxInput x)) ∧
  ∀ (c : Command) (i : Instr), decodeCommand c = .ok i →
    c.cmd ∈ [0x00#8, 0x01#8, 0x08#8, 0x09#8, 0x0A#8, 0x0B#8, 0x0C#8, 0x0D#8,
      0x40#8, 0x48#8, 0x49#8, 0x4A#8, 0x4B#8, 0x4C#8, 0x4D#8]

/-- R64 and R134: a command word is illegal exactly in the cases (a) to (d); it then executes nothing
and its response is `(ILL, CMD[7:6], bv256(0))`, nothing else changing; 241 of the 256 words are illegal. -/
def Obligations.IllegalCommandWordsAnswerIll : Prop :=
  (∀ c : Command, (∃ e, decodeCommand c = .error e) ↔
    (c.cmd.extractLsb' 6 2 = 0b10#2 ∨ c.cmd.extractLsb' 6 2 = 0b11#2) ∨
    c.cmd.extractLsb' 4 2 ≠ 0b00#2 ∨
    c.cmd.extractLsb' 0 4 ∈ [0x2#4, 0x3#4, 0x4#4, 0x5#4, 0x6#4, 0x7#4, 0xE#4, 0xF#4] ∨
    (c.cmd.extractLsb' 6 2 = 0b01#2 ∧ c.cmd.extractLsb' 0 4 = 0x1#4)) ∧
  (∀ (c : Command) (s : State) (e : DecodeError), decodeCommand c = .error e →
    s.rst = false → s.q.length < Config.depth →
    runCommand c s = .next { s with q := s.q ++ [⟨.ill, c.cmd.extractLsb' 6 2, 0#256⟩] }) ∧
  ((List.range 256).filter (fun n => (decodeTableWord 8 n).isNone)).length = 241

/-- R67: the decoder reads the command word alone to choose the function, and every command is one
command byte and 32 operand bytes long (that the two stand together as bytes is log entry 16). -/
def Obligations.DecoderReadsOnlyTheCommandWord : Prop :=
  (∀ (cmd : Byte) (x y : Word) (i : Instr), decodeCommand ⟨cmd, x⟩ = .ok i →
    ∃ j, decodeCommand ⟨cmd, y⟩ = .ok j ∧ j.func = i.func ∧ j.surface = i.surface ∧ j.operand = y) ∧
  (∀ (cmd : Byte) (x y : Word) (e : DecodeError),
    decodeCommand ⟨cmd, x⟩ = .error e → decodeCommand ⟨cmd, y⟩ = .error e) ∧
  ∀ (bytes : List Byte) (i : Instr), decodeBytes bytes = .ok i → bytes.length = 33

/-- A few requests written out: the command words are R60 to R65's, the operands those of
95_test_vectors.md. That a request is one command byte and then the operand's 32 bytes, big-endian, is the
model's choice (log entry 16); no rule lays a request out in bytes (R42 gives the operand's own order). -/
def Obligations.WrittenOutWordsDecode : Prop :=
  decodeBytes (0x00#8 :: List.replicate 24 0x00#8 ++
      [0x37#8, 0x82#8, 0xda#8, 0xce#8, 0x9d#8, 0x90#8, 0x00#8, 0x00#8]) =
    .ok (.sqrtRaw 0x3782dace9d900000#256) ∧
  decodeBytes (0x40#8 :: List.replicate 24 0x00#8 ++
      [0xde#8, 0x0b#8, 0x6b#8, 0x3a#8, 0x76#8, 0x40#8, 0x00#8, 0x00#8]) =
    .ok (.sqrtTyped 0xde0b6b3a76400000#256) ∧
  decodeBytes (0x01#8 :: List.replicate 31 0x00#8 ++ [0x51#8]) = .ok (.isqrtRaw 81#256) ∧
  decodeBytes (0x4b#8 :: List.replicate 30 0x00#8 ++ [0x12#8, 0x34#8]) = .ok (.constTypedE 0x1234#256) ∧
  decodeBytes (0x41#8 :: List.replicate 31 0x00#8 ++ [0x10#8]) = .error .isqrtOnTyped

/-- R42: byte `k` of a port word is bits [255 - 8k : 248 - 8k], and the 32 bytes spell the word. -/
def Obligations.PortWordBytesAreBigEndian : Prop :=
  ∀ v : Word, (wordToBytes v).length = 32 ∧ BitVec.ofNat 256 (ofBigEndian (wordToBytes v)) = v ∧
    ∀ k : Nat, k < 32 → (wordToBytes v)[k]? = some (v.extractLsb' (248 - 8 * k) 8)

/-! ### SQRT -/

/-- R103: on both surfaces `x = 0` gives `(OK, surf, 0)`. The last clause, that step 4 at 0 would give the
same word, is the sentence R103 marks as derived from R100 and R95. -/
def Obligations.SqrtOfZeroIsZero : Prop :=
  (∀ (x : Word) (s : State), sint x = 0 → s.rst = false → s.q.length < Config.depth →
    exec (.sqrtRaw x) s = .next { s with q := s.q ++ [⟨.ok, 0b00#2, 0#256⟩] } ∧
    exec (.sqrtTyped x) s = .next { s with q := s.q ++ [⟨.ok, 0b01#2, 0#256⟩] }) ∧
  bv256 (isqrt (rescale 0)) = 0#256

/-- R104: on both surfaces every `x < 0` gives `(NEG, surf, 0)`. -/
def Obligations.SqrtOfNegativeInputReportsNeg : Prop :=
  ∀ (x : Word) (s : State), sint x < 0 → s.rst = false → s.q.length < Config.depth →
    exec (.sqrtRaw x) s = .next { s with q := s.q ++ [⟨.neg, 0b00#2, 0#256⟩] } ∧
    exec (.sqrtTyped x) s = .next { s with q := s.q ++ [⟨.neg, 0b01#2, 0#256⟩] }

/-- R105: on both surfaces every `x` above `SQRT_MAX_INPUT` gives `(OVF, surf, 0)`, and `x` equal to it
succeeds. Its value there is not R105's: it is the bound of R108, which the spec derives
(91_not_in_source.md N12), and a corner case of R101 and R102. -/
def Obligations.SqrtAboveTheBoundaryReportsOvf : Prop :=
  ∀ (x : Word) (s : State), s.rst = false → s.q.length < Config.depth →
    (57896044618658097711785492504343953926634992332820282019729 < sint x →
      exec (.sqrtRaw x) s = .next { s with q := s.q ++ [⟨.ovf, 0b00#2, 0#256⟩] } ∧
      exec (.sqrtTyped x) s = .next { s with q := s.q ++ [⟨.ovf, 0b01#2, 0#256⟩] }) ∧
    (sint x = 57896044618658097711785492504343953926634992332820282019729 →
      exec (.sqrtRaw x) s =
        .next { s with q := s.q ++ [⟨.ok, 0b00#2, 240615969168004511545033772477625056927#256⟩] } ∧
      exec (.sqrtTyped x) s =
        .next { s with q := s.q ++ [⟨.ok, 0b01#2, 240615969168004511545033772477625056927#256⟩] })

/-- R107: on both surfaces every `x` from 1 to `SQRT_MAX_INPUT` gives `(OK, surf, r)` with
`r * r ≤ x * 10^18 < (r + 1) * (r + 1)`, `r` being carried whole by the result word. -/
def Obligations.SqrtInRangeIsTheFloorRoot : Prop :=
  ∀ (x : Word) (s : State), 1 ≤ sint x →
    sint x ≤ 57896044618658097711785492504343953926634992332820282019729 →
    s.rst = false → s.q.length < Config.depth →
    ∃ r : Word,
      (r.toNat : Int) * r.toNat ≤ sint x * 10 ^ 18 ∧ sint x * 10 ^ 18 < ((r.toNat : Int) + 1) * (r.toNat + 1) ∧
      exec (.sqrtRaw x) s = .next { s with q := s.q ++ [⟨.ok, 0b00#2, r⟩] } ∧
      exec (.sqrtTyped x) s = .next { s with q := s.q ++ [⟨.ok, 0b01#2, r⟩] }

/-- R106: the product of every `x` that reaches step 4 is exact and fits 256 unsigned bits; it has bit
255 set for `x = SQRT_MAX_INPUT` alone. -/
def Obligations.RescaledProductFitsAnUnsignedWord : Prop :=
  ∀ x : Int, 1 ≤ x → x ≤ sqrtMaxInput →
    (rescale x : Int) = x * 10 ^ 18 ∧ 10 ^ 18 ≤ rescale x ∧
    rescale x ≤ 57896044618658097711785492504343953926634992332820282019729 * 10 ^ 18 ∧
    rescale x < 2 ^ 256 ∧ (x ≤ (sqrtMaxInput : Int) - 1 → rescale x < 2 ^ 255) ∧
    (x = sqrtMaxInput →
      rescale x = 0x80000000000000000000000000000000000000000000000002e2f34caba40000)

/-- R108: a successful SQRT result is at most the root at the boundary, fills no bit above 127, reads
the same signed and unsigned, and reaches the bound at the boundary. -/
def Obligations.SqrtResultStaysBelowItsBound : Prop :=
  (∀ (x : Word) (surf : Code), (sqrtKernel (sint x) surf).status = .ok →
    uint (sqrtKernel (sint x) surf).result ≤ 240615969168004511545033772477625056927 ∧
    (sqrtKernel (sint x) surf).result.extractLsb' 128 128 = 0#128 ∧
    sint (sqrtKernel (sint x) surf).result = uint (sqrtKernel (sint x) surf).result) ∧
  ∀ surf : Code, sqrtKernel 57896044618658097711785492504343953926634992332820282019729 surf =
    ⟨.ok, surf, 0x00000000000000000000000000000000b504f333f9de6484597d89b3754abe9f#256⟩

/-- R110: on `0 ≤ x1 ≤ x2 ≤ SQRT_MAX_INPUT` the result is monotone, and not strictly: the last two
inputs give the same result. -/
def Obligations.SqrtIsMonotone : Prop :=
  (∀ (x y : Word) (surf : Code), 0 ≤ sint x → sint x ≤ sint y →
    sint y ≤ 57896044618658097711785492504343953926634992332820282019729 →
    (sqrtKernel (sint x) surf).status = .ok ∧ (sqrtKernel (sint y) surf).status = .ok ∧
    uint (sqrtKernel (sint x) surf).result ≤ uint (sqrtKernel (sint y) surf).result) ∧
  ∀ surf : Code,
    sqrtKernel 57896044618658097711785492504343953926634992332820282019728 surf =
      ⟨.ok, surf, 240615969168004511545033772477625056927#256⟩ ∧
    sqrtKernel 57896044618658097711785492504343953926634992332820282019729 surf =
      ⟨.ok, surf, 240615969168004511545033772477625056927#256⟩

/-- R112: `SQRT(fp(k^2)) = fp(k)` exactly, for every `k` whose square's encoding is in range, the
largest such `k` being 240615969168004511545. -/
def Obligations.SqrtOfPerfectSquareIsExact : Prop :=
  (∀ (k : Nat) (s : State), k ^ 2 * 10 ^ 18 ≤ 57896044618658097711785492504343953926634992332820282019729 →
    s.rst = false → s.q.length < Config.depth →
    exec (.sqrtRaw (BitVec.ofNat 256 (k ^ 2 * 10 ^ 18))) s =
      .next { s with q := s.q ++ [⟨.ok, 0b00#2, BitVec.ofNat 256 (k * 10 ^ 18)⟩] } ∧
    exec (.sqrtTyped (BitVec.ofNat 256 (k ^ 2 * 10 ^ 18))) s =
      .next { s with q := s.q ++ [⟨.ok, 0b01#2, BitVec.ofNat 256 (k * 10 ^ 18)⟩] }) ∧
  ∀ k : Nat, k ^ 2 * 10 ^ 18 ≤ 57896044618658097711785492504343953926634992332820282019729 ↔
    k ≤ 240615969168004511545

/-! ### ISQRT -/

/-- R90, R91: ISQRT.RAW always answers OK with the unique floor root of the unsigned operand; the same
function on the TYPED surface yields ILL. -/
def Obligations.IsqrtIsTheUniqueFloorRoot : Prop :=
  ∀ (x : Word) (s : State), s.rst = false → s.q.length < Config.depth →
    (∃ r : Word,
      r.toNat * r.toNat ≤ x.toNat ∧ x.toNat < (r.toNat + 1) * (r.toNat + 1) ∧
      (∀ q : Nat, q * q ≤ x.toNat → x.toNat < (q + 1) * (q + 1) → q = r.toNat) ∧
      exec (.isqrtRaw x) s = .next { s with q := s.q ++ [⟨.ok, 0b00#2, r⟩] }) ∧
    runCommand ⟨0x41#8, x⟩ s = .next { s with q := s.q ++ [⟨.ill, 0b01#2, 0#256⟩] }

/-- R92: on the whole domain ISQRT is below 2^128 and monotone, reaches 2^128 - 1 at the top, and its
word has bits [255:128] zero. -/
def Obligations.IsqrtIsBoundedAndMonotone : Prop :=
  (∀ m : Nat, m < 2 ^ 256 → isqrt m ≤ 2 ^ 128 - 1 ∧
    (bv256 (isqrt m)).extractLsb' 128 128 = 0#128 ∧ uint (bv256 (isqrt m)) = isqrt m) ∧
  isqrt (2 ^ 256 - 1) = 340282366920938463463374607431768211455 ∧
  ∀ m n : Nat, m ≤ n → n < 2 ^ 256 → isqrt m ≤ isqrt n

/-- R95: the corner cases of ISQRT; an operand with bit 255 set is a large magnitude, not a negative number. -/
def Obligations.IsqrtCornerCases : Prop :=
  isqrt 0 = 0 ∧ isqrt 1 = 1 ∧ isqrt 2 = 1 ∧ isqrt 3 = 1 ∧ isqrt 4 = 2 ∧ isqrt 8 = 2 ∧ isqrt 9 = 3 ∧
  isqrt 15 = 3 ∧ isqrt 16 = 4 ∧ isqrt (2 ^ 254) = 170141183460469231731687303715884105728 ∧
  isqrt (2 ^ 255) = 240615969168004511545033772477625056927 ∧
  isqrt ((2 ^ 128 - 1) ^ 2 - 1) = 340282366920938463463374607431768211454 ∧
  isqrt ((2 ^ 128 - 1) ^ 2) = 2 ^ 128 - 1 ∧ isqrt (2 ^ 256 - 1) = 2 ^ 128 - 1 ∧
  ∀ s : State, s.rst = false → s.q.length < Config.depth →
    exec (.isqrtRaw 0xffffffffffffffffffffffffffffffffffffffffffffffffffffffffffffffff#256) s =
      .next { s with q := s.q ++ [⟨.ok, 0b00#2, 340282366920938463463374607431768211455#256⟩] } ∧
    exec (.isqrtRaw 0x8000000000000000000000000000000000000000000000000000000000000000#256) s =
      .next { s with q := s.q ++ [⟨.ok, 0b00#2, 240615969168004511545033772477625056927#256⟩] }

/-- R93: the reference algorithm returns `ISQRT(m)` for every operand. -/
def Obligations.ReferenceRootAlgorithmAgrees : Prop :=
  ∀ m : Nat, m < 2 ^ 256 → isqrtRef m = isqrt m

/-! ### CONST -/

/-- R171, R172, R181, R182: the reads of the two constants that the source's text fixes, for every
operand. -/
def Obligations.ConstReadsOfBoundsAppendTheirWords : Prop :=
  ∀ (x : Word) (s : State), s.rst = false → s.q.length < Config.depth →
    exec (.constRawMax x) s = .next { s with q := s.q ++
      [⟨.ok, 0b00#2, 0x7fffffffffffffffffffffffffffffffffffffffffffffffffffffffffffffff#256⟩] } ∧
    exec (.constTypedMax x) s = .next { s with q := s.q ++
      [⟨.ok, 0b01#2, 0x7fffffffffffffffffffffffffffffffffffffffffffffffffffffffffffffff#256⟩] } ∧
    exec (.constRawSqrtMaxInput x) s = .next { s with q := s.q ++
      [⟨.ok, 0b00#2, 0x0000000000000009392ee8e921d5d073aff322e62439fcf32d7f344649470f91#256⟩] } ∧
    exec (.constTypedSqrtMaxInput x) s = .next { s with q := s.q ++
      [⟨.ok, 0b01#2, 0x0000000000000009392ee8e921d5d073aff322e62439fcf32d7f344649470f91#256⟩] }

/-- R173 to R180: the reads of `MAX_WHOLE_SD59x18`, whose value the spec derives from its definition (R82),
and of `MIN_SD59x18`, `E` and `PI`, whose values the spec supplies from general knowledge (log entries 13
and 14), for every operand. -/
def Obligations.ConstReadsOfOtherConstantsAppendTheirWords : Prop :=
  ∀ (x : Word) (s : State), s.rst = false → s.q.length < Config.depth →
    exec (.constRawMaxWhole x) s = .next { s with q := s.q ++
      [⟨.ok, 0b00#2, 0x7ffffffffffffffffffffffffffffffffffffffffffffffff5023c9904400000#256⟩] } ∧
    exec (.constTypedMaxWhole x) s = .next { s with q := s.q ++
      [⟨.ok, 0b01#2, 0x7ffffffffffffffffffffffffffffffffffffffffffffffff5023c9904400000#256⟩] } ∧
    exec (.constRawMin x) s = .next { s with q := s.q ++
      [⟨.ok, 0b00#2, 0x8000000000000000000000000000000000000000000000000000000000000000#256⟩] } ∧
    exec (.constTypedMin x) s = .next { s with q := s.q ++
      [⟨.ok, 0b01#2, 0x8000000000000000000000000000000000000000000000000000000000000000#256⟩] } ∧
    exec (.constRawE x) s = .next { s with q := s.q ++
      [⟨.ok, 0b00#2, 2718281828459045235#256⟩] } ∧
    exec (.constTypedE x) s = .next { s with q := s.q ++
      [⟨.ok, 0b01#2, 2718281828459045235#256⟩] } ∧
    exec (.constRawPi x) s = .next { s with q := s.q ++
      [⟨.ok, 0b00#2, 3141592653589793238#256⟩] } ∧
    exec (.constTypedPi x) s = .next { s with q := s.q ++
      [⟨.ok, 0b01#2, 3141592653589793238#256⟩] }

/-- R80, R82, R83: the raw values of the constants that the source's text fixes, by their definitions:
the largest signed word, the largest whole value below it, and the boundary literal with its facts
(a) to (c), inclusive. -/
def Obligations.NamedConstantsHaveTheirDefinedValues : Prop :=
  sint (rom .maxSD59x18) = 2 ^ 255 - 1 ∧
  sint (rom .maxWholeSD59x18) = (2 ^ 255 - 1) / 10 ^ 18 * 10 ^ 18 ∧
  sint (rom .sqrtMaxInput) = 57896044618658097711785492504343953926634992332820282019729 ∧
  sint (rom .sqrtMaxInput) = sqrtMaxInput ∧
  sint (rom .sqrtMaxInput) = sint (rom .maxSD59x18) / 10 ^ 18 + 1 ∧
  sint (rom .sqrtMaxInput) * 10 ^ 18 = 0x80000000000000000000000000000000000000000000000002e2f34caba40000 ∧
  sint (rom .maxSD59x18) < sint (rom .sqrtMaxInput) * 10 ^ 18 ∧
  sint (rom .sqrtMaxInput) * 10 ^ 18 < 2 ^ 256 ∧
  (sint (rom .sqrtMaxInput) - 1) * 10 ^ 18 ≤ sint (rom .maxSD59x18) ∧
  ∀ surf : Code, (sqrtKernel (sint (rom .sqrtMaxInput)) surf).status = .ok ∧
    (sqrtKernel (sint (rom .sqrtMaxInput) + 1) surf).status = .ovf

/-- R170: a CONST command word with any FUNC from 8 to D on either surface yields `(OK, s, ROM[k])`,
whatever the operand and the rest of the state, and changes nothing else. -/
def Obligations.ConstReadsIgnoreTheirOperand : Prop :=
  ∀ (k : BitVec 4) (surf : Code), 0x8#4 ≤ k → k ≤ 0xD#4 → surf = 0b00#2 ∨ surf = 0b01#2 →
    ∃ w : Word, romAt k = some w ∧
      ∀ (x : Word) (s : State), s.rst = false → s.q.length < Config.depth →
        runCommand ⟨surf ++ 0b00#2 ++ k, x⟩ s = .next { s with q := s.q ++ [⟨.ok, surf, w⟩] }

/-! ### The two surfaces and the statuses -/

/-- R123: for every FUNC legal on both surfaces and every operand, the two surfaces give the same status
and the same result, differing in the surface tag alone. -/
def Obligations.SurfacesGiveTheSameStatusAndResult : Prop :=
  ∀ (f : BitVec 4) (x : Word) (st : Status) (v : Word) (s : State),
    f = 0x0#4 ∨ (0x8#4 ≤ f ∧ f ≤ 0xD#4) → s.rst = false → s.q.length < Config.depth →
    (runCommand ⟨0b00#2 ++ 0b00#2 ++ f, x⟩ s = .next { s with q := s.q ++ [⟨st, 0b00#2, v⟩] } ↔
     runCommand ⟨0b01#2 ++ 0b00#2 ++ f, x⟩ s = .next { s with q := s.q ++ [⟨st, 0b01#2, v⟩] })

/-- R122: every response carries `SURF = CMD[7:6]` of its request, illegal commands too. -/
def Obligations.EveryResponseEchoesItsSurface : Prop :=
  ∀ (c : Command) (s : State), s.rst = false → s.q.length < Config.depth →
    ∃ (st : Status) (v : Word),
      runCommand c s = .next { s with q := s.q ++ [⟨st, c.cmd.extractLsb' 6 2, v⟩] }

/-- R133: a response whose status is not OK carries the result 0, for every command word and operand;
a zero result with OK is a real result. -/
def Obligations.FailuresCarryNoResult : Prop :=
  (∀ (c : Command) (s : State), s.rst = false → s.q.length < Config.depth →
    ∃ r : Response, runCommand c s = .next { s with q := s.q ++ [r] } ∧
      (r.status ≠ .ok → r.result = 0#256)) ∧
  execRecord ⟨0x00#8, 0#256⟩ = ⟨.ok, 0b00#2, 0#256⟩

/-- R130 to R132: NEG is reported by SQRT.RAW and SQRT.TYPED on negative operands alone, OVF by the same
two on operands above `SQRT_MAX_INPUT` alone, ILL by illegal command words alone; and the codes. -/
def Obligations.StatusIsRaisedOnlyByItsCause : Prop :=
  (∀ c : Command,
    ((execRecord c).status = .neg ↔ (c.cmd = 0x00#8 ∨ c.cmd = 0x40#8) ∧ sint c.x < 0) ∧
    ((execRecord c).status = .ovf ↔ (c.cmd = 0x00#8 ∨ c.cmd = 0x40#8) ∧
      57896044618658097711785492504343953926634992332820282019729 < sint c.x) ∧
    ((execRecord c).status = .ill ↔ ∃ e, decodeCommand c = .error e)) ∧
  statusCode .ok = 0b00#2 ∧ statusCode .neg = 0b01#2 ∧ statusCode .ovf = 0b10#2 ∧ statusCode .ill = 0b11#2

/-- R136: the four codes are distinct, so that a host tells the kinds apart by `rsp_status` alone. -/
def Obligations.StatusCodesAreDistinct : Prop :=
  ∀ a b : Status, statusCode a = statusCode b → a = b

/-! ### Every request -/

/-- The decoder, the dispatch and the meanings together are R66's `Exec(CMD, X)`: every request, legal
or not, appends exactly that record (R24) and changes nothing else. -/
def Obligations.EveryRequestAppendsItsExecRecord : Prop :=
  ∀ (c : Command) (s : State), s.rst = false → s.q.length < Config.depth →
    runCommand c s = .next { s with q := s.q ++ [execRecord c] }

/-- Whatever a command does, it leaves everything but `Q` as it was, and of `Q` it keeps every record,
adding at most one at the tail (R20, R25, R48). -/
def Obligations.CommandsChangeNothingButTheQueue : Prop :=
  ∀ (i : Instr) (s t : State), exec i s = .next t →
    t.rst = s.rst ∧ t.validWait = s.validWait ∧ t.readyWait = s.readyWait ∧ t.latch = s.latch ∧
    t.held = s.held ∧ t.pins = s.pins ∧ t.accepted = s.accepted ∧ t.delivered = s.delivered ∧
    (t.q = s.q ∨ ∃ r, t.q = s.q ++ [r])

/-- No request stops the engine: whatever the command word, the operand and the state, it answers a next
state (R137: no trap entry, no failure that stops). -/
def Obligations.NoRequestStopsTheEngine : Prop :=
  ∀ (c : Command) (s : State), ∃ t, runCommand c s = .next t

/-- Where `Accept` is not enabled, a command leaves the state as it is: the request waits at the port.
That `exec` then answers the same state is the model's choice (log entry 12). -/
def Obligations.CommandWaitsWhereAcceptIsNotEnabled : Prop :=
  ∀ (i : Instr) (s : State), s.rst = true ∨ Config.depth ≤ s.q.length → exec i s = .next s

/-- R20: the record a request transfer appends does not depend on anything but the request: two edges
that transfer the same request, in any two states, leave the same record at the tail. That an edge with
`RST = 1` before it and `rst = 0` sampled is among them is the model's reading (log entry 7). -/
def Obligations.ResponseDependsOnItsRequestAlone : Prop :=
  ∀ s s' t t' : State, (pinsNow s).request = (pinsNow s').request →
    requestTransfer s (pinsNow s) = true → requestTransfer s' (pinsNow s') = true →
    step s = .next t → step s' = .next t' →
    t.q ≠ [] ∧ t.q.getLast? = t'.q.getLast?

/-! ### A rising edge -/

/-- When the request transferred at an edge decodes to a command, the step is that command's meaning,
between sampling the ports and closing the edge (R27, R30, R52). Two things in it are the model's reading,
not the rules' words: that the transfer happens also at the edge that samples `rst = 0` while `RST` is still
1 (log entry 7), and the order of the command and the response transfer within one edge (log entry 6). -/
def Obligations.StepRunsTheDecodedCommand : Prop :=
  ∀ (s : State) (p : Pins) (rest : List Pins) (i : Instr), s.pins = p :: rest →
    breaksHold s p = false → p.rst = false → p.reqValid = true → reqReady s = true →
    decodeCommand ⟨p.reqCmd, p.reqX⟩ = .ok i →
    step s = finishEdge s p (exec i (s.openEdge p))

/-- A command placed by `withFetchWord` runs at the very next step, from every state. How a command is
placed is the model's choice (log entry 11), and so is that it runs at once where `RST` was 1 (log entry 7). -/
def Obligations.PlacedCommandRunsAtTheNextStep : Prop :=
  ∀ (s : State) (nbits w : Nat) (i : Instr), decodeTableWord nbits w = some i →
    ∃ t u, step (s.withFetchWord nbits w) = .next t ∧ exec i { s.makeRoom with rst := false } = .next u ∧
      t.q = u.q ∧ t.q = s.makeRoom.q ++ [execRecord (commandOfTableWord nbits w)] ∧
      t.delivered = s.makeRoom.delivered ∧ t.rst = false

/-- R24, R30: an edge with a request transfer appends `Exec(req_cmd, req_x)` as sampled at that edge, and
delivers the head of `Q` if a response is transferred at the same edge. The model's own choices in it: both
transfers at one edge (log entry 6), the transfer at the edge that samples `rst = 0` while `RST` is still 1
(log entry 7), what the host holds (log entry 8), and `accepted`, the record of the run (log entry 17). Both
transfers meet at one edge only where `DEPTH` is at least 2; `witness_BothTransfersAtOneEdge` is under that
hypothesis. -/
def Obligations.RequestTransferAppendsItsExecRecord : Prop :=
  ∀ (s : State) (p : Pins) (rest : List Pins), s.pins = p :: rest → breaksHold s p = false →
    p.rst = false → p.reqValid = true → reqReady s = true →
    ∃ t, step s = .next t ∧
      t.q = (if rspValid s && p.rspReady then s.q.tail else s.q) ++ [execRecord ⟨p.reqCmd, p.reqX⟩] ∧
      t.accepted = s.accepted ++ [⟨p.reqCmd, p.reqX⟩] ∧ t.held = none ∧ t.rst = false ∧ t.pins = rest

/-- R30: an edge with a response transfer hands the head of `Q`, and only it, to the host and removes it;
what else the edge does to `Q` is a request transfer's record at the tail. Both transfers at one edge is the
model's reading (log entry 6), and `delivered`, where the host's responses are kept, its record of the run
(log entry 17). -/
def Obligations.ResponseTransferDeliversTheHead : Prop :=
  ∀ (s : State) (p : Pins) (rest : List Pins) (r : Response) (q : List Response),
    s.pins = p :: rest → breaksHold s p = false → p.rst = false → s.q = r :: q →
    rspValid s = true → p.rspReady = true →
    ∃ t, step s = .next t ∧ t.delivered = s.delivered ++ [r] ∧
      t.q = (if p.reqValid && reqReady s then q ++ [execRecord ⟨p.reqCmd, p.reqX⟩] else q)

/-- R30: a response on the ports stays there, unchanged, through every edge without reset at which the
host does not take it. -/
def Obligations.PresentedResponseStaysUntilTaken : Prop :=
  ∀ s t : State, rspValid s = true → (pinsNow s).rst = false → (pinsNow s).rspReady = false →
    step s = .next t →
    rspValid t = true ∧ rspStatus t = rspStatus s ∧ rspSurf t = rspSurf s ∧ rspResult t = rspResult s ∧
    t.q.head? = s.q.head?

/-- R30: an edge without reset and without a transfer leaves `Q` as it is, and a request offered and not
taken is one the host must hold. The fields `held` (log entry 8), `accepted` and `delivered` (log entry 17)
are the model's own. -/
def Obligations.EdgeWithoutTransferKeepsTheQueue : Prop :=
  ∀ (s : State) (p : Pins) (rest : List Pins), s.pins = p :: rest → breaksHold s p = false →
    p.rst = false → (p.reqValid && reqReady s) = false → (rspValid s && p.rspReady) = false →
    ∃ t, step s = .next t ∧ t.q = s.q ∧ t.accepted = s.accepted ∧ t.delivered = s.delivered ∧
      t.held = (if p.reqValid then some ⟨p.reqCmd, p.reqX⟩ else none)

/-- R30: `req_ready` is 1 only when `|Q| < DEPTH`, `rsp_valid` is 0 when `Q` is empty, and while it is 1
the response ports show the head of `Q`. -/
def Obligations.PortsFollowTheQueue : Prop :=
  ∀ s : State, (reqReady s = true → s.q.length < Config.depth) ∧ (s.q = [] → rspValid s = false) ∧
    (rspValid s = true → ∃ r q, s.q = r :: q ∧ rspStatus s = statusCode r.status ∧
      rspSurf s = r.surf ∧ rspResult s = r.result)

/-- R150: an edge with `rst = 1` empties `Q`, drives `rsp_valid` 0 and transfers neither a request nor a
response, from every state. That `accepted` and `delivered` are then empty does not say so: a reset edge
clears these records of the run, which is the model's choice (log entry 17). -/
def Obligations.ResetEdgeEmptiesTheQueue : Prop :=
  ∀ s : State, (pinsNow s).rst = true →
    requestTransfer s (pinsNow s) = false ∧ responseTransfer s (pinsNow s) = false ∧
    ∃ t, step s = .next t ∧ t.q = [] ∧ t.rst = true ∧ rspValid t = false ∧ t.accepted = [] ∧
      t.delivered = []

/-- R33, R154: after reset `Q` is empty and `rsp_valid` is 0, and there is room for a request, which can be
accepted as soon as `req_ready` is 1. That `RST` is 0 there is the model's reading (log entry 10), and that
no request is held there is its choice (log entry 8). -/
def Obligations.ResetStateIsIdle : Prop :=
  State.reset.q = [] ∧ State.reset.rst = false ∧ rspValid State.reset = false ∧
  State.reset.held = none ∧ State.reset.q.length < Config.depth

/-- The host that changes or withdraws a request before it is taken is refused, by name, and nothing else
is ever refused. R30 obliges the host to hold the request and I13 and D32 put the host that does not outside
the model. That a reset edge is exempt and releases the hold is the model's choice (log entry 8): R30 gives
no exemption. -/
def Obligations.OnlyABrokenHoldIsRefused : Prop :=
  (∀ (s : State) (c : Command), s.held = some c → (pinsNow s).rst = false →
    (pinsNow s).reqValid = false ∨ (pinsNow s).request ≠ c → step s = .refused .requestNotHeld) ∧
  ∀ (s : State) (e : Refusal), step s = .refused e → e = .requestNotHeld ∧
    ∃ c, s.held = some c ∧ (pinsNow s).rst = false ∧
      ((pinsNow s).reqValid = false ∨ (pinsNow s).request ≠ c)

/-! ### Runs -/

/-- The invariant of Safety.lean holds right after reset. That the records of the run are empty there is
the model's choice (log entry 17). -/
def Obligations.InvariantHoldsAtReset : Prop := Inv State.reset

/-- Every step from a state that meets the invariant leads to one that meets it: `|Q| ≤ DEPTH` (R24),
`Q` empty while `RST = 1` (R150), and the responses delivered and pending are the records of the
requests accepted since the last reset, in order (R24, R159). That a reset edge clears the two records is
the model's choice (log entry 17). -/
def Obligations.EveryStepKeepsTheInvariant : Prop :=
  ∀ s t : State, Inv s → step s = .next t → Inv t

/-- R24, R49, R159: a run of any length from any state with an empty record, whatever the host does:
since the last reset every accepted request has exactly one response, in request order, none lost, none
twice; at the end of the run (`Q` empty) the host has received them all; and the accepted requests are
requests the host offered, in the order it offered them. A reset loses the responses pending (R157); that
the records start again there, so that nothing is missing from them, is the model's choice (log entry 17). -/
def Obligations.RunDeliversEveryResponseInRequestOrder : Prop :=
  ∀ (k : Nat) (s t : State), s.q = [] → s.accepted = [] → s.delivered = [] →
    Host.Core.run Sys2Proof.core k s = .next t →
    t.delivered ++ t.q = t.accepted.map execRecord ∧
    (t.q = [] → t.delivered = t.accepted.map execRecord) ∧
    (k ≤ s.pins.length →
      t.accepted.Sublist (((s.pins.take k).filter (fun p => p.reqValid)).map Pins.request))

/-- Every rising edge takes, in the spec's own step relation on `(Q, RST)` (R31), the enabled steps that
its ports name, and delivers to the host exactly what those steps output. R31 gives the steps; which of them
one edge takes and in which order (`edgeMoves`: Reset to the sampled level, then Accept, then Deliver) is the
model's reading (log entries 6 and 7). `delivered` is the record of log entry 17. -/
def Obligations.EveryEdgeIsAllowedByTheStepRelation : Prop :=
  ∀ s t : State, step s = .next t →
    ∃ out, takeMoves (edgeMoves s (pinsNow s)) s.transact = some (t.transact, out) ∧
      ((pinsNow s).rst = false → t.delivered = s.delivered ++ out)

/-- R153, R158: when a response is at the head of `Q` and no reset comes, `rsp_valid` is 1 after the
finite wait that was drawn for it (log entry 2; the host after the listed samples is log entry 9's). -/
def Obligations.ValidRisesAfterItsLatency : Prop :=
  ∀ s t : State, s.rst = false → s.q ≠ [] → (∀ p ∈ s.pins, p.rst = false) →
    Host.Core.run Sys2Proof.core s.validWait s = .next t → rspValid t = true

/-- R30, R153: when `RST = 0` and `|Q| < DEPTH` and no reset comes, `req_ready` is 1 after the finite
wait that was drawn for it (log entry 3; the host after the listed samples is log entry 9's). -/
def Obligations.ReadyRisesInFiniteTime : Prop :=
  ∀ s t : State, s.rst = false → s.q.length < Config.depth → (∀ p ∈ s.pins, p.rst = false) →
    Host.Core.run Sys2Proof.core s.readyWait s = .next t → reqReady t = true

/-! ### The host's tools -/

/-- R69 to R71: every line but `.cmd` that the assembler accepts emits a legal command, `const` with the
operand 0; `isqrt.typed` is refused. -/
def Obligations.AssembledMnemonicsAreLegalCommands : Prop :=
  (∀ (line : AsmLine) (c : Command), assemble line = .ok c → (∀ b x, line ≠ .raw b x) →
    ∃ i, decodeCommand c = .ok i) ∧
  (∀ (surface : Surface) (k : ConstName) (c : Command), assemble (.const surface k) = .ok c →
    c.x = 0#256 ∧ ∃ i, decodeCommand c = .ok i ∧ i.func = .const k ∧ i.surface = surface) ∧
  ∀ x : Literal, assemble (.isqrt .typed x) = .error .isqrtOnTyped

/-- R72: a listing line reads back as the request it lists, with or without its comment. -/
def Obligations.ListingReadsBack : Prop :=
  ∀ (c : Command) (comment : List Char),
    parseListing (listing c) = some c ∧ parseListing (listingWithComment c comment) = some c
end

