-- ==== Sys2Proof/Laws/Decode.lean ====
section
/-! SUPPORT. What the decoder's table lookup answers, for all 256 command words. -/

namespace Sys2Proof

/-- The FUNC code of a function (R62). -/
def Func.code : Func → BitVec 4
  | .sqrt => 0x0#4
  | .isqrt => 0x1#4
  | .const c => Machine.constFunc c

/-- The lookup's answer agrees with the fields of the word it looks at. -/
def selectionAgrees (cmd : Byte) : Bool :=
  match selectFunction cmd with
  | .ok (surface, func) => decide (cmd = Machine.fieldsWord (Machine.surfCode surface) func.code)
  | .error .reservedSurface => decide (surfField cmd = 0b10#2 ∨ surfField cmd = 0b11#2)
  | .error .reservedBits => decide (rsvField cmd ≠ 0b00#2)
  | .error .reservedFunction =>
    decide (funcField cmd ∈ [0x2#4, 0x3#4, 0x4#4, 0x5#4, 0x6#4, 0x7#4, 0xE#4, 0xF#4])
  | .error .isqrtOnTyped => false
  | .error .wrongLength => false

theorem selection_agrees : ∀ cmd : Byte, selectionAgrees cmd = true := by decide +kernel

/-- A word that selects a function has the function's fields. -/
theorem selectFunction_ok {cmd : Byte} {surface : Surface} {func : Func}
    (h : selectFunction cmd = .ok (surface, func)) :
    cmd = Machine.fieldsWord (Machine.surfCode surface) func.code := by
  have := selection_agrees cmd
  simpa [selectionAgrees, h] using this

/-- A word that selects no function, for one of three reasons. -/
theorem selectFunction_error {cmd : Byte} {e : DecodeError} (h : selectFunction cmd = .error e) :
    (e = .reservedSurface ∧ (surfField cmd = 0b10#2 ∨ surfField cmd = 0b11#2)) ∨
    (e = .reservedBits ∧ rsvField cmd ≠ 0b00#2) ∨
    (e = .reservedFunction ∧
      funcField cmd ∈ [0x2#4, 0x3#4, 0x4#4, 0x5#4, 0x6#4, 0x7#4, 0xE#4, 0xF#4]) := by
  have := selection_agrees cmd
  cases e <;> simp_all [selectionAgrees]

/-- A surface's code and a function's code are looked up as that surface and function. -/
theorem selectFunction_fields (surface : Surface) (func : Func) :
    selectFunction (Machine.fieldsWord (Machine.surfCode surface) func.code) = .ok (surface, func) := by
  cases surface <;> cases func <;> first | decide | (rename_i c; cases c <;> decide)

end Sys2Proof
end

