-- ==== Sys2Proof/Laws/Isqrt.lean ====
section
/-! SUPPORT. `isqrt` is the floor of the square root (41_isqrt.md R90). -/

namespace Sys2Proof.Machine

/-- The search keeps its bracket `r * r ≤ m < (r + 2^n)^2`. -/
theorem isqrtBits_spec (n m r : Nat) (hlo : r * r ≤ m) (hhi : m < (r + 2 ^ n) * (r + 2 ^ n)) :
    isqrtBits n m r * isqrtBits n m r ≤ m ∧ m < (isqrtBits n m r + 1) * (isqrtBits n m r + 1) := by
  induction n generalizing r with
  | zero => simpa [isqrtBits] using ⟨hlo, hhi⟩
  | succ n ih =>
    unfold isqrtBits
    split
    · next h => exact ih _ h (by rw [pow_succ] at hhi; convert hhi using 2 <;> ring)
    · next h => exact ih _ hlo (by omega)

theorem isqrt_spec {m : Nat} (h : m < 2 ^ 256) :
    isqrt m * isqrt m ≤ m ∧ m < (isqrt m + 1) * (isqrt m + 1) :=
  isqrtBits_spec 128 m 0 (by omega) (by omega)

/-- The floor root is the only number that meets R90. -/
theorem floor_root_unique {m r q : Nat} (h1 : r * r ≤ m) (h2 : m < (r + 1) * (r + 1))
    (h3 : q * q ≤ m) (h4 : m < (q + 1) * (q + 1)) : r = q := by
  have ha : r < q + 1 := by by_contra h; nlinarith
  have hb : q < r + 1 := by by_contra h; nlinarith
  omega

theorem isqrt_eq {m r : Nat} (hm : m < 2 ^ 256) (h1 : r * r ≤ m) (h2 : m < (r + 1) * (r + 1)) :
    isqrt m = r :=
  floor_root_unique (isqrt_spec hm).1 (isqrt_spec hm).2 h1 h2

theorem isqrt_lt {m : Nat} (h : m < 2 ^ 256) : isqrt m < 2 ^ 128 := by
  have := (isqrt_spec h).1
  by_contra hc
  have : 2 ^ 128 * 2 ^ 128 ≤ isqrt m * isqrt m := Nat.mul_le_mul (by omega) (by omega)
  omega

end Sys2Proof.Machine
end

