-- ==== Sys2Proof/Laws/Numerals.lean ====
section
/-! SUPPORT. Writing a number in bytes or digits and reading it back (20_memory.md R42, 30_encoding.md R72). -/

namespace Sys2Proof

theorem length_bigEndian (n v : Nat) : (bigEndian n v).length = n := by
  induction n with
  | zero => rfl
  | succ n ih => simp [bigEndian, ih]

theorem foldl_bigEndian (n v acc : Nat) :
    (bigEndian n v).foldl (fun acc b => acc * 256 + b.toNat) acc = acc * 256 ^ n + v % 256 ^ n := by
  induction n generalizing acc with
  | zero => simp [bigEndian, Nat.mod_one]
  | succ n ih =>
    simp only [bigEndian, List.foldl_cons, ih, BitVec.toNat_ofNat]
    have h : v % 256 ^ (n + 1) = v % 256 ^ n + 256 ^ n * (v / 256 ^ n % 256) := by
      rw [pow_succ, Nat.mod_mul]
    rw [h, show (2 : Nat) ^ 8 = 256 from rfl, pow_succ]
    ring

/-- The `n` low bytes of a number spell it, up to its `n` low bytes. -/
theorem ofBigEndian_bigEndian (n v : Nat) : ofBigEndian (bigEndian n v) = v % 256 ^ n := by
  simpa [ofBigEndian] using foldl_bigEndian n v 0

namespace Machine

theorem hexDigit_digitChar {d : Nat} (h : d < 16) : hexDigit (digitChar d) = some d := by
  revert h d
  decide

theorem digitsOf_append (digit : Char → Option Nat) (as bs : List Char) :
    digitsOf digit (as ++ bs) =
      (digitsOf digit as).bind (fun xs => (digitsOf digit bs).map (fun ys => xs ++ ys)) := by
  induction as with
  | nil => cases h : digitsOf digit bs <;> simp [digitsOf, h]
  | cons a as ih =>
    simp only [List.cons_append, digitsOf, ih]
    cases digit a <;> cases digitsOf digit as <;> cases digitsOf digit bs <;> simp

theorem length_fixedDigits (base n v : Nat) : (fixedDigits base n v).length = n := by
  induction n generalizing v with
  | zero => rfl
  | succ n ih => simp [fixedDigits, ih]

/-- `n` hex digits of a number read back as `n` digits that spell it, up to its `n` low digits. -/
theorem digitsOf_fixedDigits (n v : Nat) :
    ∃ ds, digitsOf hexDigit (fixedDigits 16 n v) = some ds ∧ ds.length = n ∧
      ofDigits 16 ds = v % 16 ^ n := by
  induction n generalizing v with
  | zero => exact ⟨[], rfl, rfl, by simp [ofDigits, Nat.mod_one]⟩
  | succ n ih =>
    obtain ⟨ds, h, hl, hv⟩ := ih (v / 16)
    have hd : v % 16 < 16 := Nat.mod_lt _ (by decide)
    refine ⟨ds ++ [v % 16], ?_, by simp [hl], ?_⟩
    · simp [fixedDigits, digitsOf_append, h, digitsOf, hexDigit_digitChar hd]
    · have hv' : ds.foldl (fun acc d => acc * 16 + d) 0 = v / 16 % 16 ^ n := hv
      rw [ofDigits, List.foldl_append, hv', pow_succ', Nat.mod_mul]
      simp only [List.foldl_cons, List.foldl_nil]
      omega

end Machine

end Sys2Proof
end

