-- ==== Sys2Proof/Laws/State.lean ====
section
/-! SUPPORT. What each named update of State leaves in each field. -/

namespace Sys2Proof.Machine

section
variable (s u : State) (r : Response) (p : Pins)

@[simp] theorem State.pushResponse_q : (s.pushResponse r).q = s.q ++ [r] := rfl
@[simp] theorem State.pushResponse_rst : (s.pushResponse r).rst = s.rst := rfl
@[simp] theorem State.pushResponse_validWait : (s.pushResponse r).validWait = s.validWait := rfl
@[simp] theorem State.pushResponse_readyWait : (s.pushResponse r).readyWait = s.readyWait := rfl
@[simp] theorem State.pushResponse_latch : (s.pushResponse r).latch = s.latch := rfl
@[simp] theorem State.pushResponse_held : (s.pushResponse r).held = s.held := rfl
@[simp] theorem State.pushResponse_pins : (s.pushResponse r).pins = s.pins := rfl
@[simp] theorem State.pushResponse_accepted : (s.pushResponse r).accepted = s.accepted := rfl
@[simp] theorem State.pushResponse_delivered : (s.pushResponse r).delivered = s.delivered := rfl

theorem State.popResponse_nil (h : s.q = []) : s.popResponse = s := by
  unfold State.popResponse; rw [h]

theorem State.popResponse_cons {rest : List Response} (h : s.q = r :: rest) :
    s.popResponse = { s with q := rest, delivered := s.delivered ++ [r] } := by
  unfold State.popResponse; rw [h]

@[simp] theorem State.popResponse_q : s.popResponse.q = s.q.tail := by
  cases h : s.q with
  | nil => rw [s.popResponse_nil h, h]; rfl
  | cons r rest => rw [s.popResponse_cons r h]; rfl

@[simp] theorem State.popResponse_delivered : s.popResponse.delivered = s.delivered ++ s.q.take 1 := by
  cases h : s.q with
  | nil => rw [s.popResponse_nil h]; simp
  | cons r rest => rw [s.popResponse_cons r h]; rfl

@[simp] theorem State.popResponse_rst : s.popResponse.rst = s.rst := by
  unfold State.popResponse; split <;> rfl
@[simp] theorem State.popResponse_held : s.popResponse.held = s.held := by
  unfold State.popResponse; split <;> rfl
@[simp] theorem State.popResponse_pins : s.popResponse.pins = s.pins := by
  unfold State.popResponse; split <;> rfl
@[simp] theorem State.popResponse_accepted : s.popResponse.accepted = s.accepted := by
  unfold State.popResponse; split <;> rfl

@[simp] theorem State.resetEdge_q : (s.resetEdge p).q = [] := rfl
@[simp] theorem State.resetEdge_rst : (s.resetEdge p).rst = true := rfl
@[simp] theorem State.resetEdge_validWait : (s.resetEdge p).validWait = 0 := rfl
@[simp] theorem State.resetEdge_readyWait :
    (s.resetEdge p).readyWait = Config.readyWait (latchAfter s p) := rfl
@[simp] theorem State.resetEdge_latch : (s.resetEdge p).latch = latchAfter s p := rfl
@[simp] theorem State.resetEdge_held : (s.resetEdge p).held = none := rfl
@[simp] theorem State.resetEdge_pins : (s.resetEdge p).pins = s.pins.tail := rfl
@[simp] theorem State.resetEdge_accepted : (s.resetEdge p).accepted = [] := rfl
@[simp] theorem State.resetEdge_delivered : (s.resetEdge p).delivered = [] := rfl

@[simp] theorem State.openEdge_q : (s.openEdge p).q = s.q := rfl
@[simp] theorem State.openEdge_rst : (s.openEdge p).rst = false := rfl
@[simp] theorem State.openEdge_validWait : (s.openEdge p).validWait = s.validWait := rfl
@[simp] theorem State.openEdge_readyWait : (s.openEdge p).readyWait = s.readyWait := rfl
@[simp] theorem State.openEdge_latch : (s.openEdge p).latch = s.latch := rfl
@[simp] theorem State.openEdge_held :
    (s.openEdge p).held = if p.reqValid && !requestTransfer s p then some p.request else none := rfl
@[simp] theorem State.openEdge_pins : (s.openEdge p).pins = s.pins.tail := rfl
@[simp] theorem State.openEdge_accepted :
    (s.openEdge p).accepted = if requestTransfer s p then s.accepted ++ [p.request] else s.accepted := rfl
@[simp] theorem State.openEdge_delivered : (s.openEdge p).delivered = s.delivered := rfl

@[simp] theorem State.closeEdge_q :
    (s.closeEdge p u).q = if responseTransfer s p then u.q.tail else u.q := by
  unfold State.closeEdge; split <;> simp
@[simp] theorem State.closeEdge_delivered :
    (s.closeEdge p u).delivered =
      if responseTransfer s p then u.delivered ++ u.q.take 1 else u.delivered := by
  unfold State.closeEdge; split <;> simp
@[simp] theorem State.closeEdge_rst : (s.closeEdge p u).rst = u.rst := by
  unfold State.closeEdge; split <;> simp
@[simp] theorem State.closeEdge_held : (s.closeEdge p u).held = u.held := by
  unfold State.closeEdge; split <;> simp
@[simp] theorem State.closeEdge_pins : (s.closeEdge p u).pins = u.pins := by
  unfold State.closeEdge; split <;> simp
@[simp] theorem State.closeEdge_accepted : (s.closeEdge p u).accepted = u.accepted := by
  unfold State.closeEdge; split <;> simp
@[simp] theorem State.closeEdge_validWait : (s.closeEdge p u).validWait = nextValidWait s p := rfl
@[simp] theorem State.closeEdge_readyWait : (s.closeEdge p u).readyWait = nextReadyWait s p := rfl
@[simp] theorem State.closeEdge_latch : (s.closeEdge p u).latch = latchAfter s p := rfl

end

end Sys2Proof.Machine
end

