-- ==== Sys2Proof/Laws/Ops.lean ====
section
/-! SUPPORT. What the shared operations do: room in the queue, `respond`, the readings of a word. -/

namespace Sys2Proof.Machine

theorem shorterThan_eq (q : List Response) (n : Nat) : shorterThan q n = decide (q.length < n) := by
  induction q generalizing n with
  | nil => cases n <;> simp [shorterThan]
  | cons r q ih => cases n <;> simp [shorterThan, ih]

theorem hasRoom_iff {q : List Response} : hasRoom q = true ↔ q.length < Config.depth := by
  simp [hasRoom, shorterThan_eq]

theorem canAccept_iff {s : State} :
    canAccept s = true ↔ s.rst = false ∧ s.q.length < Config.depth := by
  simp [canAccept, hasRoom_iff]

/-- `respond` where `Accept` is enabled. -/
theorem respond_enabled {s : State} (r : Response) (hr : s.rst = false)
    (hq : s.q.length < Config.depth) : respond r s = .next (s.pushResponse r) := by
  simp [respond, canAccept_iff.2 ⟨hr, hq⟩]

/-- `respond` where `Accept` is not enabled: the request waits. -/
theorem respond_waits {s : State} (r : Response) (h : ¬ (s.rst = false ∧ s.q.length < Config.depth)) :
    respond r s = .next s := by
  have : canAccept s ≠ true := fun hc => h (canAccept_iff.1 hc)
  simp [respond, this]

/-- All that `respond` can do. -/
theorem respond_cases {r : Response} {s t : State} (h : respond r s = .next t) :
    (s.rst = false ∧ s.q.length < Config.depth ∧ t = s.pushResponse r) ∨
    (¬ (s.rst = false ∧ s.q.length < Config.depth) ∧ t = s) := by
  by_cases hc : s.rst = false ∧ s.q.length < Config.depth
  · rw [respond_enabled r hc.1 hc.2] at h
    exact .inl ⟨hc.1, hc.2, by simpa using h.symm⟩
  · rw [respond_waits r hc] at h
    exact .inr ⟨hc, by simpa using h.symm⟩

theorem sint_eq_toInt (v : Word) : sint v = v.toInt := by
  rw [sint, uint, BitVec.toInt_eq_msb_cond]
  simp [BitVec.msb_eq_getLsbD_last]

theorem sint_bounds (v : Word) : -2 ^ 255 ≤ sint v ∧ sint v < 2 ^ 255 := by
  rw [sint_eq_toInt]
  exact ⟨by simpa using BitVec.le_toInt v, by simpa using BitVec.toInt_lt (x := v)⟩

theorem uint_lt (v : Word) : uint v < 2 ^ 256 := v.isLt

theorem uint_bv256 {n : Nat} (h : n < 2 ^ 256) : uint (bv256 n) = n := by
  have h1 : ((n : Int) % 2 ^ 256).toNat = n := by omega
  rw [uint, bv256, h1, BitVec.toNat_ofNat, Nat.mod_eq_of_lt h]

end Sys2Proof.Machine
end

