-- ==== Sys2Proof/Laws/PerInstr.lean ====
section
/-! SUPPORT. For every command: the fields of its command word (30_encoding.md R60 to R65). -/

namespace Sys2Proof.Laws

/-- The command word's fields are the code of the command's surface, `00`, and the code of its
function. -/
def EncodedFields.Statement (i : Instr) : Prop :=
  surfField (commandWord i) = Machine.surfCode i.surface ∧ rsvField (commandWord i) = 0b00#2 ∧
    funcOf (funcField (commandWord i)) = some i.func ∧ i.wellFormed = true

theorem EncodedFields.sqrtRaw (x : Word) : EncodedFields.Statement (.sqrtRaw x) := by
  simp only [EncodedFields.Statement, commandWord, Instr.surface, Instr.func, Instr.wellFormed]
  decide

theorem EncodedFields.sqrtTyped (x : Word) : EncodedFields.Statement (.sqrtTyped x) := by
  simp only [EncodedFields.Statement, commandWord, Instr.surface, Instr.func, Instr.wellFormed]
  decide

theorem EncodedFields.isqrtRaw (x : Word) : EncodedFields.Statement (.isqrtRaw x) := by
  simp only [EncodedFields.Statement, commandWord, Instr.surface, Instr.func, Instr.wellFormed]
  decide

theorem EncodedFields.constRawMax (x : Word) : EncodedFields.Statement (.constRawMax x) := by
  simp only [EncodedFields.Statement, commandWord, Instr.surface, Instr.func, Instr.wellFormed]
  decide

theorem EncodedFields.constTypedMax (x : Word) : EncodedFields.Statement (.constTypedMax x) := by
  simp only [EncodedFields.Statement, commandWord, Instr.surface, Instr.func, Instr.wellFormed]
  decide

theorem EncodedFields.constRawMin (x : Word) : EncodedFields.Statement (.constRawMin x) := by
  simp only [EncodedFields.Statement, commandWord, Instr.surface, Instr.func, Instr.wellFormed]
  decide

theorem EncodedFields.constTypedMin (x : Word) : EncodedFields.Statement (.constTypedMin x) := by
  simp only [EncodedFields.Statement, commandWord, Instr.surface, Instr.func, Instr.wellFormed]
  decide

theorem EncodedFields.constRawMaxWhole (x : Word) : EncodedFields.Statement (.constRawMaxWhole x) := by
  simp only [EncodedFields.Statement, commandWord, Instr.surface, Instr.func, Instr.wellFormed]
  decide

theorem EncodedFields.constTypedMaxWhole (x : Word) : EncodedFields.Statement (.constTypedMaxWhole x) := by
  simp only [EncodedFields.Statement, commandWord, Instr.surface, Instr.func, Instr.wellFormed]
  decide

theorem EncodedFields.constRawE (x : Word) : EncodedFields.Statement (.constRawE x) := by
  simp only [EncodedFields.Statement, commandWord, Instr.surface, Instr.func, Instr.wellFormed]
  decide

theorem EncodedFields.constTypedE (x : Word) : EncodedFields.Statement (.constTypedE x) := by
  simp only [EncodedFields.Statement, commandWord, Instr.surface, Instr.func, Instr.wellFormed]
  decide

theorem EncodedFields.constRawPi (x : Word) : EncodedFields.Statement (.constRawPi x) := by
  simp only [EncodedFields.Statement, commandWord, Instr.surface, Instr.func, Instr.wellFormed]
  decide

theorem EncodedFields.constTypedPi (x : Word) : EncodedFields.Statement (.constTypedPi x) := by
  simp only [EncodedFields.Statement, commandWord, Instr.surface, Instr.func, Instr.wellFormed]
  decide

theorem EncodedFields.constRawSqrtMaxInput (x : Word) : EncodedFields.Statement (.constRawSqrtMaxInput x) := by
  simp only [EncodedFields.Statement, commandWord, Instr.surface, Instr.func, Instr.wellFormed]
  decide

theorem EncodedFields.constTypedSqrtMaxInput (x : Word) : EncodedFields.Statement (.constTypedSqrtMaxInput x) := by
  simp only [EncodedFields.Statement, commandWord, Instr.surface, Instr.func, Instr.wellFormed]
  decide

end Sys2Proof.Laws
end

