-- ==== Sys2Proof/Laws/Step.lean ====
section
/-! SUPPORT. What a command and a step can do, said once. -/

namespace Sys2Proof.Machine

/-- Every command is one `respond` of a record that depends on the command alone. -/
theorem exec_responds (i : Instr) : ∃ r, ∀ s, exec i s = respond r s := by
  cases i <;> exact ⟨_, fun _ => rfl⟩

/-- Every request, legal or not, is one `respond` of a record that depends on the request alone. -/
theorem runCommand_responds (c : Command) : ∃ r, ∀ s, runCommand c s = respond r s := by
  unfold runCommand
  cases decodeCommand c with
  | ok i => exact exec_responds i
  | error e => exact ⟨_, fun _ => rfl⟩

/-- `Accept` is enabled wherever a request is transferred. -/
theorem requestTransfer_enabled {s : State} {p : Pins} (h : requestTransfer s p = true) :
    p.rst = false ∧ p.reqValid = true ∧ s.q.length < Config.depth ∧ s.readyWait = 0 := by
  simp only [requestTransfer, reqReady, Bool.and_eq_true, Bool.not_eq_true', beq_iff_eq, hasRoom_iff] at h
  exact ⟨h.1.1, h.1.2, h.2.1, h.2.2⟩

/-- A response is transferred only from a queue that is not empty, outside reset. -/
theorem responseTransfer_enabled {s : State} {p : Pins} (h : responseTransfer s p = true) :
    p.rst = false ∧ p.rspReady = true ∧ s.rst = false ∧ s.q ≠ [] ∧ s.validWait = 0 := by
  simp only [responseTransfer, rspValid, Bool.and_eq_true, Bool.not_eq_true', beq_iff_eq,
    List.isEmpty_eq_false_iff] at h
  exact ⟨h.1.1, h.2, h.1.2.1.1, h.1.2.1.2, h.1.2.2⟩

/-- All that a step which answers a next state can do: a reset edge, an edge that takes a request, or
an edge that takes none. -/
theorem step_cases {s t : State} (h : step s = .next t) :
    ((pinsNow s).rst = true ∧ t = s.resetEdge (pinsNow s)) ∨
    ((pinsNow s).rst = false ∧ requestTransfer s (pinsNow s) = true ∧
      ∃ u, runCommand (pinsNow s).request (s.openEdge (pinsNow s)) = .next u ∧
        t = s.closeEdge (pinsNow s) u) ∨
    ((pinsNow s).rst = false ∧ requestTransfer s (pinsNow s) = false ∧
      t = s.closeEdge (pinsNow s) (s.openEdge (pinsNow s))) := by
  unfold step edge at h
  split at h
  · cases h
  · split at h
    · next hr => exact .inl ⟨hr, by simpa using h.symm⟩
    · next hr =>
      have hr : (pinsNow s).rst = false := by simpa using hr
      split at h
      · next hq =>
        cases hu : runCommand (pinsNow s).request (s.openEdge (pinsNow s)) with
        | next u =>
          rw [hu] at h
          exact .inr (.inl ⟨hr, hq, u, rfl, by simpa [finishEdge] using h.symm⟩)
        | fault r => cases r
        | refused r => rw [hu] at h; simp [finishEdge] at h
      · next hq => exact .inr (.inr ⟨hr, by simpa using hq, by simpa using h.symm⟩)

/-- What a request transfer's command leaves before the edge closes: its record at the tail of `Q`. -/
theorem runCommand_openEdge {s u : State} {p : Pins} (ht : requestTransfer s p = true)
    (hu : runCommand p.request (s.openEdge p) = .next u) :
    ∃ r, (∀ v, runCommand p.request v = respond r v) ∧ u = (s.openEdge p).pushResponse r := by
  obtain ⟨r, hr⟩ := runCommand_responds p.request
  refine ⟨r, hr, ?_⟩
  rw [hr, respond_enabled (s := s.openEdge p) r rfl (requestTransfer_enabled ht).2.2.1] at hu
  simpa using hu.symm

end Sys2Proof.Machine
end

