-- ==== Sys2Proof/Laws/Run.lean ====
section
/-! SUPPORT. Runs of the machine, one step at a time, and the induction over them, said once. -/

namespace Sys2Proof.Machine

theorem run_zero {s t : State} (h : Host.Core.run core 0 s = .next t) : s = t := by
  have h' : Host.Outcome.next (φ := Fault) (ρ := Refusal) s = .next t := h
  injection h'

theorem run_succ {k : Nat} {s t : State} (h : Host.Core.run core (k + 1) s = .next t) :
    ∃ u, step s = .next u ∧ Host.Core.run core k u = .next t := by
  simp only [Host.Core.run] at h
  cases hs : step s with
  | next u =>
    have hc : core.step s = Host.Outcome.next u := hs
    rw [hc] at h
    exact ⟨u, rfl, h⟩
  | fault r => cases r
  | refused r =>
    have hc : core.step s = Host.Outcome.refused r := hs
    rw [hc] at h
    cases h

/-- What every step keeps, every run keeps. -/
theorem run_keeps {P : State → Prop} (hP : ∀ s t, P s → step s = .next t → P t) {k : Nat} {s t : State}
    (hs : P s) (h : Host.Core.run core k s = .next t) : P t := by
  induction k generalizing s with
  | zero => exact run_zero h ▸ hs
  | succ k ih =>
    obtain ⟨u, hu, h⟩ := run_succ h
    exact ih (hP s u hs hu) h

/-- A step uses up one sample of the ports. -/
theorem step_pins {s t : State} (h : step s = .next t) : t.pins = s.pins.tail := by
  rcases step_cases h with ⟨-, rfl⟩ | ⟨-, ht, u, hu, rfl⟩ | ⟨-, -, rfl⟩
  · rfl
  · obtain ⟨r, -, rfl⟩ := runCommand_openEdge ht hu
    simp
  · simp

/-- Where no sample to come asserts `rst`, the next edge is no reset edge. -/
theorem pinsNow_rst {s : State} (h : ∀ p ∈ s.pins, p.rst = false) : (pinsNow s).rst = false := by
  unfold pinsNow
  split
  · next hp => exact h _ (by simp [hp])
  · unfold idlePins
    split <;> rfl

end Sys2Proof.Machine
end

