-- ==== Sys2Proof/Laws/Sqrt.lean ====
section
/-! SUPPORT. What the square-root kernel answers, said once per class of inputs. -/

namespace Sys2Proof.Machine

theorem sqrtKernel_zero (surf : Code) : sqrtKernel 0 surf = ⟨.ok, surf, bv256 0⟩ := by
  simp [sqrtKernel]

theorem sqrtKernel_negative {x : Int} (h : x < 0) (surf : Code) :
    sqrtKernel x surf = raiseNegativeInput surf := by
  rw [sqrtKernel, if_neg (by omega), if_pos h]

theorem sqrtKernel_overflow {x : Int} (h : (sqrtMaxInput : Int) < x) (surf : Code) :
    sqrtKernel x surf = raiseOverflow surf := by
  rw [sqrtKernel, if_neg (by omega), if_neg (by omega), if_pos h]

theorem sqrtKernel_root {x : Int} (h : 1 ≤ x) (h' : x ≤ sqrtMaxInput) (surf : Code) :
    sqrtKernel x surf = ⟨.ok, surf, bv256 (isqrt (rescale x))⟩ := by
  rw [sqrtKernel, if_neg (by omega), if_neg (by omega), if_neg (by omega)]

/-- The product of an input in range is exact and fits a word (R106). -/
theorem rescale_lt {x : Int} (h : x ≤ sqrtMaxInput) : rescale x < 2 ^ 256 := by
  simp only [rescale, scale, sqrtMaxInput] at *
  omega

/-- A root is carried whole by a word, and reads the same signed and unsigned. -/
theorem uint_bv256_root {r : Nat} (h : r < 2 ^ 128) : uint (bv256 r) = r ∧ sint (bv256 r) = r := by
  have hu : uint (bv256 r) = r := uint_bv256 (by omega)
  have hb : ¬ (bv256 r).getLsbD 255 = true := by
    rw [BitVec.getLsbD, show (bv256 r).toNat = r from hu, Nat.testBit_eq_false_of_lt (by omega)]
    decide
  exact ⟨hu, by rw [sint, hu, if_neg hb]⟩

end Sys2Proof.Machine
end

