-- ==== Sys2Proof/Tests/Slice0.lean ====
section
/-! SUPPORT. The model's own tests: words written out from the encodings of 30_encoding.md, vectors of
95_test_vectors.md, a smoke test of each check, and for every statement with hypotheses a witness that
meets them. -/

open Sys2Proof Sys2Proof.Machine

namespace Sys2Proof.Tests

/-! ### Small states -/

/-- An idle engine outside reset, `req_ready` up. -/
def ready : State := ⟨[], false, 0, 0, 0, none, [], [], []⟩

/-- The same with one response on the response ports. -/
def pending : State := { ready with q := [⟨.ok, 0b00#2, 3#256⟩] }

/-- A sample that offers a request and takes no response. -/
def offer (cmd : Byte) (x : Word) : Pins := ⟨false, true, cmd, x, false⟩

/-- A sample that offers nothing and takes a response. -/
def take : Pins := ⟨false, false, 0#8, 0#256, true⟩

/-- A sample of an edge with `rst = 1`. -/
def resetPins : Pins := ⟨true, false, 0#8, 0#256, false⟩

/-- The queue an outcome leaves. -/
def queueOf : Host.Outcome State Fault Refusal → List Response
  | .next s => s.q
  | .fault _ => []
  | .refused _ => []

/-- The responses delivered in an outcome. -/
def deliveredOf : Host.Outcome State Fault Refusal → List Response
  | .next s => s.delivered
  | .fault _ => []
  | .refused _ => []

theorem ready_has_room : ready.q.length < Config.depth := Nat.succ_pos _

/-! ### Checks refuse their ill-formed terms (WellFormed, R62, R64 (d)) -/

theorem test_isqrt_not_legal_on_typed : Func.legalOn .isqrt .typed = false := by decide
theorem test_isqrt_legal_on_raw : Func.legalOn .isqrt .raw = true := by decide

/-! ### Decoding: each row's word, bit by bit (R60 to R65): SURF, RSV, FUNC -/

theorem test_decode_sqrtRaw : decodeCommand ⟨0b00000000#8, 7#256⟩ = .ok (.sqrtRaw 7#256) := by decide
theorem test_decode_isqrtRaw : decodeCommand ⟨0b00000001#8, 8#256⟩ = .ok (.isqrtRaw 8#256) := by decide
theorem test_decode_constRawMax : decodeCommand ⟨0b00001000#8, 9#256⟩ = .ok (.constRawMax 9#256) := by decide
theorem test_decode_constRawMin : decodeCommand ⟨0b00001001#8, 10#256⟩ = .ok (.constRawMin 10#256) := by decide
theorem test_decode_constRawMaxWhole : decodeCommand ⟨0b00001010#8, 11#256⟩ = .ok (.constRawMaxWhole 11#256) := by decide
theorem test_decode_constRawE : decodeCommand ⟨0b00001011#8, 12#256⟩ = .ok (.constRawE 12#256) := by decide
theorem test_decode_constRawPi : decodeCommand ⟨0b00001100#8, 13#256⟩ = .ok (.constRawPi 13#256) := by decide
theorem test_decode_constRawSqrtMaxInput : decodeCommand ⟨0b00001101#8, 14#256⟩ = .ok (.constRawSqrtMaxInput 14#256) := by decide
theorem test_decode_sqrtTyped : decodeCommand ⟨0b01000000#8, 15#256⟩ = .ok (.sqrtTyped 15#256) := by decide
theorem test_decode_constTypedMax : decodeCommand ⟨0b01001000#8, 16#256⟩ = .ok (.constTypedMax 16#256) := by decide
theorem test_decode_constTypedMin : decodeCommand ⟨0b01001001#8, 17#256⟩ = .ok (.constTypedMin 17#256) := by decide
theorem test_decode_constTypedMaxWhole : decodeCommand ⟨0b01001010#8, 18#256⟩ = .ok (.constTypedMaxWhole 18#256) := by decide
theorem test_decode_constTypedE : decodeCommand ⟨0b01001011#8, 19#256⟩ = .ok (.constTypedE 19#256) := by decide
theorem test_decode_constTypedPi : decodeCommand ⟨0b01001100#8, 20#256⟩ = .ok (.constTypedPi 20#256) := by decide
theorem test_decode_constTypedSqrtMaxInput : decodeCommand ⟨0b01001101#8, 21#256⟩ = .ok (.constTypedSqrtMaxInput 21#256) := by decide

theorem test_illegal_41 : decodeCommand ⟨0x41#8, 16#256⟩ = .error .isqrtOnTyped := by decide
theorem test_illegal_10 : decodeCommand ⟨0x10#8, 4#256⟩ = .error .reservedBits := by decide
theorem test_illegal_c0 : decodeCommand ⟨0xc0#8, 4#256⟩ = .error .reservedSurface := by decide
theorem test_illegal_07 : decodeCommand ⟨0x07#8, 0#256⟩ = .error .reservedFunction := by decide
theorem test_illegal_length : decodeBytes [0x00#8, 0x01#8] = .error .wrongLength := by decide
theorem test_table_numbering : decodeTableWord 264 0x1240 = some (.sqrtTyped 0x12#256) := by decide +kernel
theorem test_table_bits_above_nbits_are_zero : decodeTableWord 8 0x1240 = some (.sqrtTyped 0#256) := by decide

/-! ### Vectors of 95_test_vectors.md section 2 -/

theorem test_sqrtRaw_two : queueOf (exec (.sqrtRaw 0x1bc16d674ec80000#256) ready) = [⟨.ok, 0b00#2, 1414213562373095048#256⟩] := by decide +kernel
theorem test_sqrtRaw_boundary : queueOf (exec (.sqrtRaw 0x0000000000000009392ee8e921d5d073aff322e62439fcf32d7f344649470f91#256) ready) = [⟨.ok, 0b00#2, 240615969168004511545033772477625056927#256⟩] := by decide +kernel
theorem test_sqrtTyped_above_boundary : queueOf (exec (.sqrtTyped 0x0000000000000009392ee8e921d5d073aff322e62439fcf32d7f344649470f92#256) ready) = [⟨.ovf, 0b01#2, 0#256⟩] := by decide +kernel
theorem test_sqrtTyped_minus_one : queueOf (exec (.sqrtTyped 0xfffffffffffffffffffffffffffffffffffffffffffffffff21f494c589c0000#256) ready) = [⟨.neg, 0b01#2, 0#256⟩] := by decide +kernel
theorem test_isqrtRaw_bit_255 : queueOf (exec (.isqrtRaw 0x8000000000000000000000000000000000000000000000000000000000000000#256) ready) = [⟨.ok, 0b00#2, 240615969168004511545033772477625056927#256⟩] := by decide +kernel
theorem test_isqrtRaw_fifteen : queueOf (exec (.isqrtRaw 15#256) ready) = [⟨.ok, 0b00#2, 3#256⟩] := by decide +kernel
theorem test_constRawMax : queueOf (exec (.constRawMax 0#256) ready) = [⟨.ok, 0b00#2, 57896044618658097711785492504343953926634992332820282019728792003956564819967#256⟩] := by decide +kernel
theorem test_constTypedMax : queueOf (exec (.constTypedMax 0x1234#256) ready) = [⟨.ok, 0b01#2, 57896044618658097711785492504343953926634992332820282019728792003956564819967#256⟩] := by decide +kernel
theorem test_constRawMin : queueOf (exec (.constRawMin 0#256) ready) = [⟨.ok, 0b00#2, 57896044618658097711785492504343953926634992332820282019728792003956564819968#256⟩] := by decide +kernel
theorem test_constTypedMin : queueOf (exec (.constTypedMin 0x1234#256) ready) = [⟨.ok, 0b01#2, 57896044618658097711785492504343953926634992332820282019728792003956564819968#256⟩] := by decide +kernel
theorem test_constRawMaxWhole : queueOf (exec (.constRawMaxWhole 0#256) ready) = [⟨.ok, 0b00#2, 57896044618658097711785492504343953926634992332820282019728000000000000000000#256⟩] := by decide +kernel
theorem test_constTypedMaxWhole : queueOf (exec (.constTypedMaxWhole 0x1234#256) ready) = [⟨.ok, 0b01#2, 57896044618658097711785492504343953926634992332820282019728000000000000000000#256⟩] := by decide +kernel
theorem test_constRawE : queueOf (exec (.constRawE 0#256) ready) = [⟨.ok, 0b00#2, 2718281828459045235#256⟩] := by decide +kernel
theorem test_constTypedE : queueOf (exec (.constTypedE 0x1234#256) ready) = [⟨.ok, 0b01#2, 2718281828459045235#256⟩] := by decide +kernel
theorem test_constRawPi : queueOf (exec (.constRawPi 0#256) ready) = [⟨.ok, 0b00#2, 3141592653589793238#256⟩] := by decide +kernel
theorem test_constTypedPi : queueOf (exec (.constTypedPi 0x1234#256) ready) = [⟨.ok, 0b01#2, 3141592653589793238#256⟩] := by decide +kernel
theorem test_constRawSqrtMaxInput : queueOf (exec (.constRawSqrtMaxInput 0#256) ready) = [⟨.ok, 0b00#2, 57896044618658097711785492504343953926634992332820282019729#256⟩] := by decide +kernel
theorem test_constTypedSqrtMaxInput : queueOf (exec (.constTypedSqrtMaxInput 0x1234#256) ready) = [⟨.ok, 0b01#2, 57896044618658097711785492504343953926634992332820282019729#256⟩] := by decide +kernel

/-! ### Edges: rows of 95_test_vectors.md P3 and P5, and the handshakes (R30) -/

theorem test_step_accepts_sqrt_nine :
    queueOf (step { ready with pins := [offer 0x40#8 0x7ce66c50e2840000#256] }) =
      [⟨.ok, 0b01#2, 3000000000000000000#256⟩] := by decide +kernel

theorem test_step_answers_illegal_80 :
    queueOf (step { ready with pins := [offer 0x80#8 0x3782dace9d900000#256] }) =
      [⟨.ill, 0b10#2, 0#256⟩] := by decide +kernel

theorem test_step_not_ready_takes_nothing :
    queueOf (step { ready with pins := [offer 0x40#8 4#256], readyWait := 1 }) = [] := by decide +kernel

theorem test_step_delivers_in_order :
    deliveredOf (step { pending with q := [⟨.ok, 0b01#2, 3#256⟩, ⟨.ok, 0b00#2, 9#256⟩], pins := [take] }) =
      [⟨.ok, 0b01#2, 3#256⟩] := by decide +kernel

theorem test_step_not_valid_delivers_nothing :
    deliveredOf (step { pending with validWait := 1, pins := [take] }) = [] := by decide +kernel

theorem test_reset_loses_two_responses :
    queueOf (step { pending with q := [⟨.ok, 0b01#2, 3#256⟩, ⟨.ok, 0b00#2, 9#256⟩], pins := [resetPins] }) =
      [] := by decide +kernel

theorem test_withdrawn_request_is_refused :
    step { ready with held := some ⟨0x00#8, 4#256⟩, pins := [take] } = .refused .requestNotHeld := rfl

theorem test_first_command_after_reset :
    queueOf (step (State.reset.withFetchWord 8 0x4b)) = [⟨.ok, 0b01#2, 2718281828459045235#256⟩] := by
  decide +kernel

/-! ### The assembler and the listing (R69 to R72, 95_test_vectors.md section 1, P2, P3) -/

theorem test_assemble_sqrt_fp :
    assembleText "SQRT.raw fp(-1)".toList =
      .ok ⟨0x00#8, 0xfffffffffffffffffffffffffffffffffffffffffffffffff21f494c589c0000#256⟩ := by decide +kernel

theorem test_assemble_offset :
    assembleText "sqrt SQRT_MAX_INPUT + 1".toList =
      .ok ⟨0x00#8, 0x0000000000000009392ee8e921d5d073aff322e62439fcf32d7f344649470f92#256⟩ := by decide +kernel

theorem test_assemble_const_typed :
    assembleText "const.typed MAX_WHOLE_SD59x18".toList = .ok ⟨0x4a#8, 0#256⟩ := by decide +kernel

theorem test_assemble_cmd : assembleText ".cmd 0x4b, 0x1234".toList = .ok ⟨0x4b#8, 0x1234#256⟩ := by
  decide +kernel

theorem test_assemble_isqrt_typed_refused :
    assembleText "isqrt.typed 4".toList = .error .isqrtOnTyped := by decide +kernel

theorem test_assemble_fraction_too_long :
    assembleText "sqrt fp(0.1234567890123456789)".toList = .error .tooManyFractionDigits := by decide +kernel

theorem test_assemble_integer_out_of_range :
    assemble (.isqrt .raw (.int (2 ^ 256))) = .error .integerOutOfRange := by decide +kernel

theorem test_assemble_hex_too_long :
    assemble (.isqrt .raw (.hex (List.replicate 65 0))) = .error .badHexLength := by decide +kernel

theorem test_assemble_fp_out_of_range :
    assemble (.sqrt .raw (.fp false (2 ^ 255) [])) = .error .fixedPointOutOfRange := by decide +kernel

theorem test_listing :
    listingWithComment ⟨0x00#8, 0x3782dace9d900000#256⟩ "sqrt.raw fp(4)".toList =
      "00 : 0000000000000000000000000000000000000000000000003782dace9d900000  ; sqrt.raw fp(4)".toList := by
  decide +kernel

theorem test_dec : dec 1414213562373095048 = "1.414213562373095048".toList := by decide +kernel


/-! ### Witnesses: every statement's hypotheses can be met -/

theorem witness_EncodedCommandDecodesToItself : Instr.wellFormed (.sqrtTyped 4#256) = true := by decide

theorem witness_DecodedCommandEncodesBack : decodeCommand ⟨0x40#8, 4#256⟩ = .ok (.sqrtTyped 4#256) := by
  decide

theorem witness_LegalCommandWordsAreTheFifteenOfTheTable :
    decodeCommand ⟨0x4D#8, 5#256⟩ = .ok (.constTypedSqrtMaxInput 5#256) := by decide

theorem witness_IllegalCommandWordsAnswerIll :
    decodeCommand ⟨0xff#8, 1#256⟩ = .error .reservedSurface ∧ ready.rst = false ∧
      ready.q.length < Config.depth := ⟨by decide, rfl, ready_has_room⟩

theorem witness_DecoderReadsOnlyTheCommandWord :
    decodeCommand ⟨0x01#8, 1#256⟩ = .ok (.isqrtRaw 1#256) ∧
    decodeCommand ⟨0x0e#8, 1#256⟩ = .error .reservedFunction ∧
    decodeBytes (0x01#8 :: List.replicate 32 0x00#8) = .ok (.isqrtRaw 0#256) := by decide

theorem witness_SqrtOfZeroIsZero :
    sint 0#256 = 0 ∧ ready.rst = false ∧ ready.q.length < Config.depth :=
  ⟨by decide, rfl, ready_has_room⟩

/-- Both ends of the range: -1 and `MIN_SD59x18`. -/
theorem witness_SqrtOfNegativeInputReportsNeg :
    sint 0xffffffffffffffffffffffffffffffffffffffffffffffffffffffffffffffff#256 = -1 ∧
    sint 0x8000000000000000000000000000000000000000000000000000000000000000#256 = -2 ^ 255 ∧
    ready.rst = false ∧ ready.q.length < Config.depth := ⟨by decide, by decide, rfl, ready_has_room⟩

/-- Both ends of the first clause, `SQRT_MAX_INPUT + 1` and `MAX_SD59x18`, and the second clause's value. -/
theorem witness_SqrtAboveTheBoundaryReportsOvf :
    sint 0x0000000000000009392ee8e921d5d073aff322e62439fcf32d7f344649470f92#256 =
      57896044618658097711785492504343953926634992332820282019729 + 1 ∧
    sint 0x7fffffffffffffffffffffffffffffffffffffffffffffffffffffffffffffff#256 = 2 ^ 255 - 1 ∧
    sint 0x0000000000000009392ee8e921d5d073aff322e62439fcf32d7f344649470f91#256 =
      57896044618658097711785492504343953926634992332820282019729 ∧
    ready.rst = false ∧ ready.q.length < Config.depth :=
  ⟨by decide, by decide, by decide, rfl, ready_has_room⟩

/-- Both ends of the range: 1 and `SQRT_MAX_INPUT`. -/
theorem witness_SqrtInRangeIsTheFloorRoot :
    1 ≤ sint 1#256 ∧ sint 1#256 ≤ 57896044618658097711785492504343953926634992332820282019729 ∧
    1 ≤ sint 0x0000000000000009392ee8e921d5d073aff322e62439fcf32d7f344649470f91#256 ∧
    sint 0x0000000000000009392ee8e921d5d073aff322e62439fcf32d7f344649470f91#256 ≤
      57896044618658097711785492504343953926634992332820282019729 ∧
    ready.rst = false ∧ ready.q.length < Config.depth :=
  ⟨by decide, by decide, by decide, by decide, rfl, ready_has_room⟩

/-- A value strictly inside the range, and its upper end. -/
theorem witness_RescaledProductFitsAnUnsignedWord :
    (1 : Int) ≤ 1 ∧ (1 : Int) ≤ (sqrtMaxInput : Int) - 1 ∧ (1 : Int) ≤ sqrtMaxInput ∧
      (sqrtMaxInput : Int) ≤ sqrtMaxInput := by decide

theorem witness_SqrtResultStaysBelowItsBound : (sqrtKernel (sint 2#256) 0b01#2).status = .ok := by
  decide +kernel

theorem witness_SqrtIsMonotone :
    0 ≤ sint 0#256 ∧ sint 0#256 ≤ sint 2#256 ∧
      sint 2#256 ≤ 57896044618658097711785492504343953926634992332820282019729 := by decide

/-- Both ends of the range of `k`. -/
theorem witness_SqrtOfPerfectSquareIsExact :
    0 ^ 2 * 10 ^ 18 ≤ 57896044618658097711785492504343953926634992332820282019729 ∧
    240615969168004511545 ^ 2 * 10 ^ 18 ≤ 57896044618658097711785492504343953926634992332820282019729 ∧
    ready.rst = false ∧ ready.q.length < Config.depth := ⟨by decide, by decide, rfl, ready_has_room⟩

theorem witness_IsqrtIsBoundedAndMonotone : (3 : Nat) ≤ 2 ^ 256 - 1 ∧ 2 ^ 256 - 1 < 2 ^ 256 := by decide

theorem witness_ReferenceRootAlgorithmAgrees : (2 ^ 256 - 1 : Nat) < 2 ^ 256 := by decide

/-- `Accept` is enabled: all the hypotheses of IsqrtIsTheUniqueFloorRoot, IsqrtCornerCases,
ConstReadsOfBoundsAppendTheirWords, ConstReadsOfOtherConstantsAppendTheirWords,
EveryResponseEchoesItsSurface, FailuresCarryNoResult and EveryRequestAppendsItsExecRecord. -/
theorem witness_AcceptIsEnabled : ready.rst = false ∧ ready.q.length < Config.depth :=
  ⟨rfl, ready_has_room⟩

/-- Both ends of the range of `k`, on both surfaces. -/
theorem witness_ConstReadsIgnoreTheirOperand :
    0x8#4 ≤ 0x8#4 ∧ 0x8#4 ≤ 0xD#4 ∧ 0xD#4 ≤ 0xD#4 ∧ (0b01#2 = 0b00#2 ∨ 0b01#2 = 0b01#2) ∧
      ready.rst = false ∧ ready.q.length < Config.depth :=
  ⟨by decide, by decide, by decide, by decide, rfl, ready_has_room⟩

theorem witness_SurfacesGiveTheSameStatusAndResult :
    (0x0#4 = 0x0#4 ∨ (0x8#4 ≤ 0x0#4 ∧ 0x0#4 ≤ 0xD#4)) ∧
    (0xD#4 = 0x0#4 ∨ (0x8#4 ≤ 0xD#4 ∧ 0xD#4 ≤ 0xD#4)) ∧ ready.rst = false ∧
      ready.q.length < Config.depth := ⟨by decide, by decide, rfl, ready_has_room⟩

theorem witness_StatusCodesAreDistinct : statusCode .neg = statusCode .neg := rfl

theorem witness_CommandsChangeNothingButTheQueue :
    ∃ t, exec (.isqrtRaw 15#256) ready = .next t := ⟨_, rfl⟩

/-- Reset asserted, and a full queue. -/
theorem witness_CommandWaitsWhereAcceptIsNotEnabled :
    ({ ready with rst := true } : State).rst = true ∧
    Config.depth ≤ ({ ready with q := List.replicate Config.depth ⟨.ok, 0#2, 0#256⟩ } : State).q.length :=
  ⟨rfl, by simp⟩

/-- Two different states at an edge with the same request. -/
theorem witness_ResponseDependsOnItsRequestAlone :
    let s : State := { ready with pins := [offer 0x00#8 4#256] }
    let s' : State := { ready with latch := 7, delivered := [⟨.ok, 0#2, 1#256⟩], pins := [offer 0x00#8 4#256] }
    (pinsNow s).request = (pinsNow s').request ∧ requestTransfer s (pinsNow s) = true ∧
      requestTransfer s' (pinsNow s') = true ∧ (∃ t, step s = .next t) ∧ ∃ t', step s' = .next t' :=
  ⟨rfl, by decide, by decide, ⟨_, rfl⟩, ⟨_, rfl⟩⟩

/-- An edge with a request transfer: also all the hypotheses of RequestTransferAppendsItsExecRecord. -/
theorem witness_StepRunsTheDecodedCommand :
    let s : State := { ready with pins := [offer 0x00#8 4#256] }
    s.pins = offer 0x00#8 4#256 :: [] ∧ breaksHold s (offer 0x00#8 4#256) = false ∧
      (offer 0x00#8 4#256).rst = false ∧ (offer 0x00#8 4#256).reqValid = true ∧ reqReady s = true ∧
      decodeCommand ⟨0x00#8, 4#256⟩ = .ok (.sqrtRaw 4#256) :=
  ⟨rfl, by decide, rfl, rfl, by decide, by decide⟩

theorem witness_PlacedCommandRunsAtTheNextStep :
    decodeTableWord 8 0x0d = some (.constRawSqrtMaxInput 0#256) := by decide

theorem witness_ResponseTransferDeliversTheHead :
    let s : State := { pending with pins := [take] }
    s.pins = take :: [] ∧ breaksHold s take = false ∧ take.rst = false ∧
      s.q = ⟨.ok, 0b00#2, 3#256⟩ :: [] ∧ rspValid s = true ∧ take.rspReady = true :=
  ⟨rfl, by decide, rfl, rfl, by decide, rfl⟩

/-- Both transfers at one edge, for RequestTransferAppendsItsExecRecord and ResponseTransferDeliversTheHead:
a response is pending and a request is taken, which needs room for two. -/
theorem witness_BothTransfersAtOneEdge (room : 2 ≤ Config.depth) :
    let p : Pins := ⟨false, true, 0x00#8, 4#256, true⟩
    let s : State := { pending with pins := [p] }
    s.pins = p :: [] ∧ breaksHold s p = false ∧ p.rst = false ∧ p.reqValid = true ∧ reqReady s = true ∧
      s.q = ⟨.ok, 0b00#2, 3#256⟩ :: [] ∧ (rspValid s && p.rspReady) = true :=
  ⟨rfl, by decide, rfl, rfl, by simp [reqReady, hasRoom, shorterThan_eq, pending, ready]; omega, rfl, by decide⟩

theorem witness_PresentedResponseStaysUntilTaken :
    rspValid pending = true ∧ (pinsNow pending).rst = false ∧ (pinsNow pending).rspReady = false ∧
      ∃ t, step pending = .next t := ⟨by decide, by decide, by decide, ⟨_, rfl⟩⟩

/-- A request offered while `req_ready` is 0. -/
theorem witness_EdgeWithoutTransferKeepsTheQueue :
    let s : State := { ready with readyWait := 2, pins := [offer 0x00#8 4#256] }
    s.pins = offer 0x00#8 4#256 :: [] ∧ breaksHold s (offer 0x00#8 4#256) = false ∧
      (offer 0x00#8 4#256).rst = false ∧ ((offer 0x00#8 4#256).reqValid && reqReady s) = false ∧
      (rspValid s && (offer 0x00#8 4#256).rspReady) = false :=
  ⟨rfl, by decide, rfl, by decide, by decide⟩

theorem witness_PortsFollowTheQueue :
    reqReady ready = true ∧ ready.q = [] ∧ rspValid pending = true := ⟨by decide, rfl, by decide⟩

theorem witness_ResetEdgeEmptiesTheQueue :
    (pinsNow { pending with pins := [resetPins] }).rst = true := by decide

theorem witness_OnlyABrokenHoldIsRefused :
    let s : State := { ready with held := some ⟨0x00#8, 4#256⟩, pins := [offer 0x00#8 5#256] }
    s.held = some ⟨0x00#8, 4#256⟩ ∧ (pinsNow s).rst = false ∧
      ((pinsNow s).reqValid = false ∨ (pinsNow s).request ≠ ⟨0x00#8, 4#256⟩) ∧
      step s = .refused .requestNotHeld := ⟨rfl, by decide, by decide, rfl⟩

/-- The invariant at a state with a response pending, and a step from it. -/
theorem witness_EveryStepKeepsTheInvariant :
    let s : State := { ready with q := [⟨.ok, 0b00#2, 0#256⟩], accepted := [⟨0x00#8, 0#256⟩], pins := [take] }
    Inv s ∧ ∃ t, step s = .next t :=
  ⟨⟨Nat.succ_le_succ (Nat.zero_le _), by decide, by decide +kernel⟩, ⟨_, rfl⟩⟩

/-- A run of one edge with a request transfer. -/
theorem witness_RunDeliversEveryResponseInRequestOrder :
    let s : State := { ready with pins := [offer 0x00#8 4#256] }
    s.q = [] ∧ s.accepted = [] ∧ s.delivered = [] ∧ 1 ≤ s.pins.length ∧
      ∃ t, Host.Core.run Sys2Proof.core 1 s = .next t := ⟨rfl, rfl, rfl, by decide, ⟨_, rfl⟩⟩

theorem witness_EveryEdgeIsAllowedByTheStepRelation :
    let s : State := { pending with pins := [take] }
    (pinsNow s).rst = false ∧ ∃ t, step s = .next t := ⟨by decide, ⟨_, rfl⟩⟩

theorem witness_ValidRisesAfterItsLatency :
    let s : State := { pending with validWait := 2, pins := [take, take] }
    s.rst = false ∧ s.q ≠ [] ∧ (∀ p ∈ s.pins, p.rst = false) ∧
      ∃ t, Host.Core.run Sys2Proof.core s.validWait s = .next t :=
  ⟨rfl, by decide, by decide, ⟨_, rfl⟩⟩

theorem witness_ReadyRisesInFiniteTime :
    let s : State := { ready with readyWait := 2, pins := [offer 0x00#8 4#256, offer 0x00#8 4#256] }
    s.rst = false ∧ s.q.length < Config.depth ∧ (∀ p ∈ s.pins, p.rst = false) ∧
      ∃ t, Host.Core.run Sys2Proof.core s.readyWait s = .next t :=
  ⟨rfl, ready_has_room, by decide, ⟨_, rfl⟩⟩

theorem witness_AssembledMnemonicsAreLegalCommands :
    assemble (.sqrt .typed (.int 4)) = .ok ⟨0x40#8, 4#256⟩ ∧
      (∀ b x, AsmLine.sqrt .typed (.int 4) ≠ .raw b x) ∧
      assemble (.const .typed .e) = .ok ⟨0x4b#8, 0#256⟩ := ⟨by decide, by simp, by decide⟩

end Sys2Proof.Tests
end

/-! What an edge that answers can do, as a predicate with a constructor per kind of edge (10_state.md
R30, R150).

`EdgeTo` stands before the first theorem of the proofs: Lean checks an inductive type only after all that
comes before it, so the proofs below do not wait, each in a thread of its own, for the kernel to finish the
tests above, and the compile keeps within its memory. -/

namespace Sys2Proof.Machine

/-- The state after an edge with `rst = 0` at which no hold is broken; `step_transferEdge` ties it to
`step`. -/
def State.transferEdge (s : State) (p : Pins) : State :=
  s.closeEdge p
    (if requestTransfer s p then (s.openEdge p).pushResponse (execRecord p.request) else s.openEdge p)

/-- The states an edge can lead to; `edgeTo_of_step` ties it to `step`. -/
inductive EdgeTo (s : State) : State → Prop where
  | reset (hr : (pinsNow s).rst = true) : EdgeTo s (s.resetEdge (pinsNow s))
  | transfers (hr : (pinsNow s).rst = false) : EdgeTo s (s.transferEdge (pinsNow s))

end Sys2Proof.Machine

/-! The command of a request: it appends the record of 30_encoding.md R66. -/

namespace Sys2Proof.Machine

@[simp] theorem surfField_fieldsWord (surf : Code) (func : BitVec 4) :
    surfField (fieldsWord surf func) = surf := by revert surf func; decide

@[simp] theorem rsvField_fieldsWord (surf : Code) (func : BitVec 4) :
    rsvField (fieldsWord surf func) = 0b00#2 := by revert surf func; decide

@[simp] theorem funcField_fieldsWord (surf : Code) (func : BitVec 4) :
    funcField (fieldsWord surf func) = func := by revert surf func; decide

/-- A surface's code is one of the two that R61 names. -/
@[simp] theorem surfCode_legal (surface : Surface) :
    ¬ (surfCode surface = 0b10#2 ∨ surfCode surface = 0b11#2) := by
  cases surface <;> decide

@[simp] theorem romAt_constFunc (k : ConstName) : romAt (constFunc k) = some (rom k) := by
  cases k <;> simp [romAt, constFunc]

theorem execRecord_sqrt (surface : Surface) (x : Word) :
    execRecord ⟨fieldsWord (surfCode surface) Func.sqrt.code, x⟩ =
      sqrtKernel (sint x) (surfCode surface) := by
  simp [execRecord, Func.code]

theorem execRecord_isqrt_raw (x : Word) :
    execRecord ⟨fieldsWord (surfCode .raw) Func.isqrt.code, x⟩ =
      ⟨.ok, surfRaw, bv256 (isqrt (uint x))⟩ := by
  simp [execRecord, Func.code, surfCode, surfRaw]

theorem execRecord_isqrt_typed (x : Word) :
    execRecord ⟨fieldsWord (surfCode .typed) Func.isqrt.code, x⟩ = raiseIllegalCommand surfTyped := by
  simp [execRecord, Func.code, surfCode, surfTyped]

theorem execRecord_const (surface : Surface) (k : ConstName) (x : Word) :
    execRecord ⟨fieldsWord (surfCode surface) (Func.const k).code, x⟩ =
      constRecord k (surfCode surface) := by
  have h0 : constFunc k ≠ 0x0#4 := by cases k <;> decide
  have h1 : constFunc k ≠ 0x1#4 := by cases k <;> decide
  simp [execRecord, Func.code, constRecord, h0, h1]

/-- A command word that selects no function has the record of an illegal command (R64 (a) to (c)). -/
theorem execRecord_illegal {c : Command} {e : DecodeError} (h : selectFunction c.cmd = .error e) :
    execRecord c = raiseIllegalCommand (surfField c.cmd) := by
  obtain ⟨-, h⟩ | ⟨-, h⟩ | ⟨-, h⟩ := selectFunction_error h
  · obtain h | h := h <;> simp [execRecord, h]
  · simp [execRecord, h]
  · simp only [List.mem_cons, List.not_mem_nil, or_false] at h
    rcases h with h | h | h | h | h | h | h | h <;> simp [execRecord, romAt, h]

/-- The decoder, the dispatch and the meanings together answer R66's record, for every request. -/
theorem runCommand_eq_respond (c : Command) (s : State) :
    runCommand c s = respond (execRecord c) s := by
  obtain ⟨cmd, x⟩ := c
  cases h : selectFunction cmd with
  | error e => simp [runCommand, decodeCommand, h, execIllegal, execRecord_illegal (c := ⟨cmd, x⟩) h]
  | ok sel =>
    obtain ⟨surface, func⟩ := sel
    simp only [runCommand, decodeCommand, h]
    obtain rfl := selectFunction_ok h
    cases func with
    | sqrt => rw [execRecord_sqrt]; cases surface <;> rfl
    | isqrt =>
      cases surface with
      | raw => rw [execRecord_isqrt_raw]; rfl
      | typed => rw [execRecord_isqrt_typed]; rfl
    | const k => rw [execRecord_const]; cases surface <;> cases k <;> rfl

/-- The meaning of the command that a request decodes to. -/
theorem exec_decoded {c : Command} {i : Instr} (h : decodeCommand c = .ok i) (s : State) :
    exec i s = respond (execRecord c) s := by
  rw [← runCommand_eq_respond, runCommand, h]

/-- Settles O30: a command is one `respond`, which writes no field but `q`. -/
theorem commandsChangeNothingButTheQueue : Obligations.CommandsChangeNothingButTheQueue := by
  intro i s t h
  obtain ⟨r, hr⟩ := exec_responds i
  rw [hr] at h
  obtain ⟨-, -, rfl⟩ | ⟨-, rfl⟩ := respond_cases h
  · simp
  · simp

/-- Settles O32. -/
theorem commandWaitsWhereAcceptIsNotEnabled : Obligations.CommandWaitsWhereAcceptIsNotEnabled := by
  intro i s h
  obtain ⟨r, hr⟩ := exec_responds i
  have hoff : ¬ (s.rst = false ∧ s.q.length < Config.depth) := by
    rintro ⟨hrst, hroom⟩
    obtain h | h := h
    · simp [hrst] at h
    · omega
  rw [hr, respond_waits r hoff]

end Sys2Proof.Machine

/-! One rising edge, said once: each field after an edge with `rst = 0`, and what the three kinds of edge
answer (10_state.md R30). -/

namespace Sys2Proof.Machine

section
variable (s : State) (p : Pins)

/-- The head leaves `Q` before the new record comes to its tail: a response is transferred from a queue
that is not empty, so the order of the two within the edge cannot be seen (log entry 6). -/
theorem State.transferEdge_q :
    (s.transferEdge p).q =
      (if responseTransfer s p then s.q.tail else s.q) ++
        (if requestTransfer s p then [execRecord p.request] else []) := by
  unfold State.transferEdge
  cases hd : responseTransfer s p with
  | false => cases requestTransfer s p <;> simp [hd]
  | true =>
    obtain ⟨-, -, -, hq, -⟩ := responseTransfer_enabled hd
    cases requestTransfer s p <;> simp [hd, List.tail_append_of_ne_nil hq]

theorem length_kept_le :
    (if responseTransfer s p then s.q.tail else s.q).length ≤ s.q.length := by
  cases responseTransfer s p <;> simp

theorem State.transferEdge_delivered :
    (s.transferEdge p).delivered = s.delivered ++ (if responseTransfer s p then s.q.take 1 else []) := by
  unfold State.transferEdge
  cases hd : responseTransfer s p with
  | false => cases requestTransfer s p <;> simp [hd]
  | true =>
    obtain ⟨-, -, -, hq, -⟩ := responseTransfer_enabled hd
    have hpos : 1 ≤ s.q.length := List.length_pos_iff.2 hq
    cases requestTransfer s p <;> simp [hd, hpos]

/-- A response transfer moves the head of `Q` from one list to the other and loses nothing. -/
theorem State.transferEdge_responses :
    (s.transferEdge p).delivered ++ (s.transferEdge p).q =
      s.delivered ++ s.q ++ (if requestTransfer s p then [execRecord p.request] else []) := by
  rw [State.transferEdge_delivered, State.transferEdge_q]
  cases responseTransfer s p with
  | false => simp
  | true =>
    have hsplit : s.q.take 1 ++ s.q.tail = s.q := by simpa using List.take_append_drop 1 s.q
    simp only [↓reduceIte, List.append_assoc]
    rw [← List.append_assoc (s.q.take 1), hsplit]

theorem State.transferEdge_accepted :
    (s.transferEdge p).accepted = s.accepted ++ (if requestTransfer s p then [p.request] else []) := by
  unfold State.transferEdge
  cases h : requestTransfer s p <;> simp [h]

@[simp] theorem State.transferEdge_rst : (s.transferEdge p).rst = false := by
  unfold State.transferEdge
  cases requestTransfer s p <;> simp

@[simp] theorem State.transferEdge_held :
    (s.transferEdge p).held = if p.reqValid && !requestTransfer s p then some p.request else none := by
  unfold State.transferEdge
  cases h : requestTransfer s p <;> simp [h]

@[simp] theorem State.transferEdge_pins : (s.transferEdge p).pins = s.pins.tail := by
  unfold State.transferEdge
  cases requestTransfer s p <;> simp

@[simp] theorem State.transferEdge_validWait : (s.transferEdge p).validWait = nextValidWait s p := rfl
@[simp] theorem State.transferEdge_readyWait : (s.transferEdge p).readyWait = nextReadyWait s p := rfl

end

section
variable {s t : State}

theorem pinsNow_cons {p : Pins} {rest : List Pins} (h : s.pins = p :: rest) : pinsNow s = p := by
  simp [pinsNow, h]

theorem requestTransfer_eq {p : Pins} (h : p.rst = false) :
    requestTransfer s p = (p.reqValid && reqReady s) := by simp [requestTransfer, h]

theorem responseTransfer_eq {p : Pins} (h : p.rst = false) :
    responseTransfer s p = (rspValid s && p.rspReady) := by simp [responseTransfer, h]

/-- At a reset edge neither channel transfers (R150). -/
theorem no_transfer_in_reset {p : Pins} (h : p.rst = true) :
    requestTransfer s p = false ∧ responseTransfer s p = false := by
  simp [requestTransfer, responseTransfer, h]

theorem breaksHold_iff {p : Pins} :
    breaksHold s p = true ↔
      ∃ c, s.held = some c ∧ p.rst = false ∧ (p.reqValid = false ∨ p.request ≠ c) := by
  unfold breaksHold
  cases s.held with
  | none => simp
  | some c => cases p.reqValid <;> simp

theorem step_brokenHold (h : breaksHold s (pinsNow s) = true) : step s = .refused .requestNotHeld := by
  rw [step, edge, if_pos h]

theorem step_resetEdge (h : (pinsNow s).rst = true) : step s = .next (s.resetEdge (pinsNow s)) := by
  have hb : ¬ breaksHold s (pinsNow s) = true := by simp [breaksHold_iff, h]
  rw [step, edge, if_neg hb, if_pos h]

theorem step_transferEdge (hb : breaksHold s (pinsNow s) = false) (hr : (pinsNow s).rst = false) :
    step s = .next (s.transferEdge (pinsNow s)) := by
  rw [step, edge, if_neg (by simp [hb]), if_neg (by simp [hr]), State.transferEdge]
  cases hq : requestTransfer s (pinsNow s) with
  | false => simp
  | true =>
    obtain ⟨-, -, hroom, -⟩ := requestTransfer_enabled hq
    simp [runCommand_eq_respond, respond_enabled (s := s.openEdge (pinsNow s)) _ rfl hroom, finishEdge]

/-- The edge at a listed sample. -/
theorem step_transferEdge_cons {p : Pins} {rest : List Pins} (hp : s.pins = p :: rest)
    (hb : breaksHold s p = false) (hr : p.rst = false) : step s = .next (s.transferEdge p) := by
  obtain rfl := pinsNow_cons hp
  exact step_transferEdge hb hr

/-- An edge that answers is a reset edge or an edge of transfers. -/
theorem edgeTo_of_step (h : step s = .next t) : EdgeTo s t := by
  cases hr : (pinsNow s).rst with
  | true =>
    obtain rfl : s.resetEdge (pinsNow s) = t := by simpa [step_resetEdge hr] using h
    exact .reset hr
  | false =>
    cases hb : breaksHold s (pinsNow s) with
    | true => rw [step_brokenHold hb] at h; cases h
    | false =>
      obtain rfl : s.transferEdge (pinsNow s) = t := by simpa [step_transferEdge hb hr] using h
      exact .transfers hr

theorem step_next_of_no_reset (h : step s = .next t) (hr : (pinsNow s).rst = false) :
    t = s.transferEdge (pinsNow s) := by
  cases edgeTo_of_step h with
  | reset hr' => simp [hr] at hr'
  | transfers _ => rfl

end

/-- Settles O43. -/
theorem onlyABrokenHoldIsRefused : Obligations.OnlyABrokenHoldIsRefused := by
  refine ⟨fun s c hheld hr hdrop => step_brokenHold (breaksHold_iff.2 ⟨c, hheld, hr, hdrop⟩), ?_⟩
  intro s e h
  cases hb : breaksHold s (pinsNow s) with
  | true => exact ⟨by simpa [step_brokenHold hb] using h.symm, breaksHold_iff.1 hb⟩
  | false =>
    cases hr : (pinsNow s).rst with
    | true => rw [step_resetEdge hr] at h; cases h
    | false => rw [step_transferEdge hb hr] at h; cases h

/-- Settles O34. -/
theorem stepRunsTheDecodedCommand : Obligations.StepRunsTheDecodedCommand := by
  intro s p rest i hp hb hr hv hready hdec
  obtain rfl := pinsNow_cons hp
  have hq : requestTransfer s (pinsNow s) = true := by simp [requestTransfer_eq hr, hv, hready]
  have hrun : runCommand (pinsNow s).request (s.openEdge (pinsNow s)) =
      exec i (s.openEdge (pinsNow s)) := by
    rw [runCommand_eq_respond, exec_decoded (c := (pinsNow s).request) hdec]
  rw [step, edge, if_neg (by simp [hb]), if_neg (by simp [hr]), if_pos hq, hrun]

/-- Settles O36. -/
theorem requestTransferAppendsItsExecRecord : Obligations.RequestTransferAppendsItsExecRecord := by
  intro s p rest hp hb hr hv hready
  have hq : requestTransfer s p = true := by simp [requestTransfer_eq hr, hv, hready]
  refine ⟨_, step_transferEdge_cons hp hb hr, ?_, ?_, ?_, ?_, ?_⟩
  · rw [State.transferEdge_q, hq, responseTransfer_eq hr]; rfl
  · rw [State.transferEdge_accepted, hq]; rfl
  · simp [hq]
  · simp
  · simp [hp]

/-- Settles O37. -/
theorem responseTransferDeliversTheHead : Obligations.ResponseTransferDeliversTheHead := by
  intro s p rest r q hp hb hr hq hvalid hready
  have hd : responseTransfer s p = true := by simp [responseTransfer_eq hr, hvalid, hready]
  refine ⟨_, step_transferEdge_cons hp hb hr, ?_, ?_⟩
  · simp [State.transferEdge_delivered, hd, hq]
  · rw [State.transferEdge_q, hd, requestTransfer_eq hr, hq]
    cases p.reqValid && reqReady s <;> simp [Pins.request]

/-- Settles O39. -/
theorem edgeWithoutTransferKeepsTheQueue : Obligations.EdgeWithoutTransferKeepsTheQueue := by
  intro s p rest hp hb hr hnoreq hnorsp
  have hq : requestTransfer s p = false := by rw [requestTransfer_eq hr, hnoreq]
  have hd : responseTransfer s p = false := by rw [responseTransfer_eq hr, hnorsp]
  refine ⟨_, step_transferEdge_cons hp hb hr, ?_, ?_, ?_, ?_⟩
  · simp [State.transferEdge_q, hq, hd]
  · simp [State.transferEdge_accepted, hq]
  · simp [State.transferEdge_delivered, hd]
  · simp [hq, Pins.request]

/-- After a request transfer the tail of `Q` is the request's record. -/
theorem step_last_record {s t : State} (hq : requestTransfer s (pinsNow s) = true)
    (h : step s = .next t) : t.q.getLast? = some (execRecord (pinsNow s).request) := by
  obtain ⟨hr, -, -, -⟩ := requestTransfer_enabled hq
  simp [step_next_of_no_reset h hr, State.transferEdge_q, hq]

/-- Settles O33: both queues end in the record of the one request. -/
theorem responseDependsOnItsRequestAlone : Obligations.ResponseDependsOnItsRequestAlone := by
  intro s s' t t' hreq hq hq' h h'
  have hlast := step_last_record hq h
  refine ⟨fun hnil => by simp [hnil] at hlast, ?_⟩
  rw [hlast, step_last_record hq' h', hreq]

end Sys2Proof.Machine

/-! The ports (10_state.md R30, R33). -/

namespace Sys2Proof.Machine

theorem reqReady_iff {s : State} :
    reqReady s = true ↔ s.q.length < Config.depth ∧ s.readyWait = 0 := by
  simp [reqReady, hasRoom_iff]

theorem rspValid_iff {s : State} :
    rspValid s = true ↔ s.rst = false ∧ s.q ≠ [] ∧ s.validWait = 0 := by
  simp [rspValid, and_assoc]

/-- While `rsp_valid = 1` the response ports show the head of `Q`. -/
theorem ports_show_head {s : State} {r : Response} {q : List Response} (h : rspValid s = true)
    (hq : s.q = r :: q) :
    rspStatus s = statusCode r.status ∧ rspSurf s = r.surf ∧ rspResult s = r.result := by
  have hp : presented s = some r := by simp [presented, h, hq]
  simp [rspStatus, rspSurf, rspResult, hp]

/-- Settles O40. -/
theorem portsFollowTheQueue : Obligations.PortsFollowTheQueue := by
  intro s
  refine ⟨fun h => (reqReady_iff.1 h).1, fun hnil => ?_, fun h => ?_⟩
  · simp [rspValid, hnil]
  · obtain ⟨-, hne, -⟩ := rspValid_iff.1 h
    obtain ⟨r, q, hq⟩ := List.exists_cons_of_ne_nil hne
    exact ⟨r, q, hq, ports_show_head h hq⟩

/-- Settles O38: the head stays the head, and its wait, once run out, is not drawn again. -/
theorem presentedResponseStaysUntilTaken : Obligations.PresentedResponseStaysUntilTaken := by
  intro s t hvalid hr hready h
  obtain ⟨-, hne, hwait⟩ := rspValid_iff.1 hvalid
  obtain ⟨r, q, hq⟩ := List.exists_cons_of_ne_nil hne
  have hd : responseTransfer s (pinsNow s) = false := by simp [responseTransfer_eq hr, hready]
  obtain rfl := step_next_of_no_reset h hr
  obtain ⟨q', hq'⟩ : ∃ q', (s.transferEdge (pinsNow s)).q = r :: q' :=
    ⟨_, by rw [State.transferEdge_q, hd, hq]; rfl⟩
  have hvalid' : rspValid (s.transferEdge (pinsNow s)) = true :=
    rspValid_iff.2 ⟨by simp, by simp [hq'], by simp [nextValidWait, hd, hq, hwait]⟩
  obtain ⟨hst, hsu, hre⟩ := ports_show_head hvalid hq
  obtain ⟨hst', hsu', hre'⟩ := ports_show_head hvalid' hq'
  refine ⟨hvalid', ?_, ?_, ?_, ?_⟩
  · rw [hst, hst']
  · rw [hsu, hsu']
  · rw [hre, hre']
  · rw [hq, hq']; rfl

/-- Settles O42. -/
theorem resetStateIsIdle : Obligations.ResetStateIsIdle :=
  ⟨rfl, rfl, rfl, rfl, Nat.succ_pos _⟩

/-- A step with room and a wait under way counts the wait for `req_ready` down, and takes no request. -/
theorem step_counts_readyWait {s t : State} {n : Nat} (hrst : s.rst = false)
    (hroom : s.q.length < Config.depth) (hw : s.readyWait = n + 1) (hr : (pinsNow s).rst = false)
    (h : step s = .next t) : t.rst = false ∧ t.q.length < Config.depth ∧ t.readyWait = n := by
  have hready : reqReady s = false := by simp [reqReady, hw]
  have hq : requestTransfer s (pinsNow s) = false := by simp [requestTransfer_eq hr, hready]
  obtain rfl := step_next_of_no_reset h hr
  refine ⟨by simp, ?_, ?_⟩
  · simpa [State.transferEdge_q, hq] using (length_kept_le s (pinsNow s)).trans_lt hroom
  · simp [nextReadyWait, hrst, hasRoom_iff.2 hroom, hready, hw]

/-- Settles O49, by induction on the wait. -/
theorem readyRisesInFiniteTime : Obligations.ReadyRisesInFiniteTime := by
  intro s t hrst hroom hpins h
  generalize hw : s.readyWait = n at h
  induction n generalizing s with
  | zero => exact run_zero h ▸ reqReady_iff.2 ⟨hroom, hw⟩
  | succ n ih =>
    obtain ⟨u, hu, h⟩ := run_succ h
    obtain ⟨hrst', hroom', hw'⟩ := step_counts_readyWait hrst hroom hw (pinsNow_rst hpins) hu
    have hpins' : ∀ p ∈ u.pins, p.rst = false := fun p hp =>
      hpins p (List.mem_of_mem_tail (step_pins hu ▸ hp))
    exact ih u hrst' hroom' hpins' hw' h

end Sys2Proof.Machine

/-! A placed command (log entry 11). -/

namespace Sys2Proof.Machine

theorem State.makeRoom_hasRoom (s : State) : s.makeRoom.q.length < Config.depth := by
  unfold State.makeRoom
  split
  · next h => exact hasRoom_iff.1 h
  · simp only [List.length_drop, Config.depth]
    omega

theorem decodeCommand_of_decodeTableWord {nbits w : Nat} {i : Instr}
    (h : decodeTableWord nbits w = some i) : decodeCommand (commandOfTableWord nbits w) = .ok i := by
  unfold decodeTableWord at h
  split at h
  · next hdec => simpa [hdec] using h
  · cases h

/-- The edge after placing a request transfers it, and no response: the host placed takes none. -/
theorem step_placeRequest (s : State) (c : Command) :
    ∃ t, step (s.placeRequest c) = .next t ∧ t.q = s.makeRoom.q ++ [execRecord c] ∧
      t.delivered = s.makeRoom.delivered ∧ t.rst = false := by
  have hready : reqReady (s.placeRequest c) = true := reqReady_iff.2 ⟨s.makeRoom_hasRoom, rfl⟩
  have hq : requestTransfer (s.placeRequest c) ⟨false, true, c.cmd, c.x, false⟩ = true := by
    simp [requestTransfer_eq, hready]
  have hd : responseTransfer (s.placeRequest c) ⟨false, true, c.cmd, c.x, false⟩ = false := by
    simp [responseTransfer_eq]
  refine ⟨_, step_transferEdge_cons (s := s.placeRequest c) rfl rfl rfl, ?_, ?_, by simp⟩
  · rw [State.transferEdge_q, hq, hd]; rfl
  · rw [State.transferEdge_delivered, hd]; exact List.append_nil _

/-- Settles O35. -/
theorem placedCommandRunsAtTheNextStep : Obligations.PlacedCommandRunsAtTheNextStep := by
  intro s nbits w i hdec
  obtain ⟨t, ht, hq, hd, hr⟩ := step_placeRequest s (commandOfTableWord nbits w)
  have hexec := (exec_decoded (decodeCommand_of_decodeTableWord hdec) _).trans
    (respond_enabled (s := { s.makeRoom with rst := false }) _ rfl s.makeRoom_hasRoom)
  exact ⟨t, _, ht, hexec, hq, hq, hd, hr⟩

end Sys2Proof.Machine

/-! The record of a run: the invariant of Safety.lean, and the order of the responses (R24, R159). -/

namespace Sys2Proof.Machine

/-- The responses delivered and pending are the records of the accepted requests, in order. -/
def InOrder (s : State) : Prop := s.delivered ++ s.q = s.accepted.map execRecord

theorem step_keeps_inOrder (s t : State) (hs : InOrder s) (h : step s = .next t) : InOrder t := by
  cases edgeTo_of_step h with
  | reset _ => rfl
  | transfers _ =>
    rw [InOrder, State.transferEdge_responses, hs, State.transferEdge_accepted, List.map_append]
    cases requestTransfer s (pinsNow s) <;> rfl

/-- A request is taken only where there is room for its record. -/
theorem step_keeps_bound {s t : State} (hs : s.q.length ≤ Config.depth) (h : step s = .next t) :
    t.q.length ≤ Config.depth := by
  cases edgeTo_of_step h with
  | reset _ => simp
  | transfers _ =>
    have hkept := length_kept_le s (pinsNow s)
    rw [State.transferEdge_q, List.length_append]
    cases hq : requestTransfer s (pinsNow s) with
    | false => exact hkept.trans hs
    | true =>
      obtain ⟨-, -, hroom, -⟩ := requestTransfer_enabled hq
      exact hkept.trans_lt hroom

theorem step_empty_in_reset {s t : State} (h : step s = .next t) (hr : t.rst = true) : t.q = [] := by
  cases edgeTo_of_step h with
  | reset _ => rfl
  | transfers _ => simp at hr

/-- Settles O44. -/
theorem invariantHoldsAtReset : Obligations.InvariantHoldsAtReset :=
  ⟨Nat.zero_le _, fun _ => rfl, rfl⟩

/-- Settles O45, one lemma per part of the invariant. -/
theorem everyStepKeepsTheInvariant : Obligations.EveryStepKeepsTheInvariant := by
  intro s t hs h
  exact ⟨step_keeps_bound hs.bounded h, step_empty_in_reset h, step_keeps_inOrder s t hs.inOrder h⟩

/-- The requests that a list of samples offers, in order. -/
def offered (pins : List Pins) : List Command := (pins.filter (fun p => p.reqValid)).map Pins.request

/-- A step accepts nothing but the request of its own sample. -/
theorem step_accepts_offered {s t : State} {p : Pins} {rest : List Pins} (hp : s.pins = p :: rest)
    (h : step s = .next t) : t.accepted.Sublist (s.accepted ++ offered [p]) := by
  obtain rfl := pinsNow_cons hp
  cases edgeTo_of_step h with
  | reset _ => simp
  | transfers _ =>
    rw [State.transferEdge_accepted]
    refine (List.Sublist.refl _).append ?_
    cases hq : requestTransfer s (pinsNow s) with
    | false => simp
    | true =>
      obtain ⟨-, hv, -, -⟩ := requestTransfer_enabled hq
      simp [offered, hv]

theorem run_accepts_offered {k : Nat} {s t : State} (h : Host.Core.run core k s = .next t)
    (hk : k ≤ s.pins.length) : t.accepted.Sublist (s.accepted ++ offered (s.pins.take k)) := by
  induction k generalizing s with
  | zero => simp [run_zero h]
  | succ k ih =>
    obtain ⟨u, hu, h⟩ := run_succ h
    obtain ⟨p, rest, hp⟩ := List.exists_cons_of_length_pos (by omega : 0 < s.pins.length)
    have hrest : u.pins = rest := by rw [step_pins hu, hp]; rfl
    have hlater := ih h (by rw [hrest]; simpa [hp] using hk)
    have hsplit : offered (s.pins.take (k + 1)) = offered [p] ++ offered (u.pins.take k) := by
      rw [hrest, hp]
      cases hv : p.reqValid <;> simp [offered, hv]
    rw [hsplit, ← List.append_assoc]
    exact hlater.trans ((step_accepts_offered hp hu).append (List.Sublist.refl _))

/-- Settles O46. -/
theorem runDeliversEveryResponseInRequestOrder :
    Obligations.RunDeliversEveryResponseInRequestOrder := by
  intro k s t hq hacc hdel h
  have hs : InOrder s := by simp [InOrder, hq, hacc, hdel]
  have ht : InOrder t := run_keeps step_keeps_inOrder hs h
  refine ⟨ht, fun hnil => ?_, fun hk => ?_⟩
  · simpa [InOrder, hnil] using ht
  · simpa [hacc, offered] using run_accepts_offered h hk

end Sys2Proof.Machine

/-! An edge against the step relation of 10_state.md R31. -/

namespace Sys2Proof.Machine

theorem takeMoves_cons {m : Move} {ms : List Move} {t t' t'' : Transact} {out out' : List Response}
    (h : m.take t = some (t', out)) (h' : takeMoves ms t' = some (t'', out')) :
    takeMoves (m :: ms) t = some (t'', out ++ out') := by
  simp [takeMoves, h, h']

theorem accept_take {q : List Response} (c : Command) (h : q.length < Config.depth) :
    (Move.accept c).take ⟨q, false⟩ = some (⟨q ++ [execRecord c], false⟩, []) := by
  simp [Move.take, h]

/-- The edge's Deliver, where Accept may have put a record at the tail before it. -/
theorem takeMoves_deliver (s : State) (p : Pins) (added : List Response) :
    takeMoves (if responseTransfer s p then [.deliver] else []) ⟨s.q ++ added, false⟩ =
      some (⟨(if responseTransfer s p then s.q.tail else s.q) ++ added, false⟩,
        if responseTransfer s p then s.q.take 1 else []) := by
  cases hd : responseTransfer s p with
  | false => rfl
  | true =>
    obtain ⟨-, -, -, hne, -⟩ := responseTransfer_enabled hd
    obtain ⟨r, rest, hq⟩ := List.exists_cons_of_ne_nil hne
    rw [hq]; rfl

/-- The edge's Accept, enabled wherever a request is transferred, and then its Deliver. -/
theorem takeMoves_transfers (s : State) (p : Pins) :
    takeMoves ((if requestTransfer s p then [.accept p.request] else []) ++
        (if responseTransfer s p then [.deliver] else [])) ⟨s.q, false⟩ =
      some (⟨(s.transferEdge p).q, false⟩, if responseTransfer s p then s.q.take 1 else []) := by
  rw [State.transferEdge_q]
  cases hq : requestTransfer s p with
  | false => simpa using takeMoves_deliver s p []
  | true =>
    obtain ⟨-, -, hroom, -⟩ := requestTransfer_enabled hq
    exact takeMoves_cons (accept_take p.request hroom) (takeMoves_deliver s p [execRecord p.request])

/-- An edge with `rst = 0` takes Reset(0) and then the steps of its transfers. -/
theorem takeMoves_transferEdge (s : State) {p : Pins} (hr : p.rst = false) :
    takeMoves (edgeMoves s p) s.transact =
      some ((s.transferEdge p).transact, if responseTransfer s p then s.q.take 1 else []) := by
  have hreset : (Move.reset p.rst).take s.transact = some (⟨s.q, false⟩, []) := by
    rw [hr]; rfl
  have hafter : (s.transferEdge p).transact = ⟨(s.transferEdge p).q, false⟩ := by
    simp [State.transact]
  rw [hafter]
  exact takeMoves_cons hreset (takeMoves_transfers s p)

/-- An edge with `rst = 1` takes Reset(1) alone. -/
theorem takeMoves_resetEdge (s : State) {p : Pins} (hr : p.rst = true) :
    takeMoves (edgeMoves s p) s.transact = some ((s.resetEdge p).transact, []) := by
  obtain ⟨hq, hd⟩ := no_transfer_in_reset (s := s) hr
  rw [edgeMoves, hq, hd, hr]; rfl

/-- Settles O47. -/
theorem everyEdgeIsAllowedByTheStepRelation : Obligations.EveryEdgeIsAllowedByTheStepRelation := by
  intro s t h
  cases edgeTo_of_step h with
  | reset hr => exact ⟨_, takeMoves_resetEdge s hr, fun hr' => by simp [hr] at hr'⟩
  | transfers hr =>
    exact ⟨_, takeMoves_transferEdge s hr, fun _ => State.transferEdge_delivered s _⟩

end Sys2Proof.Machine

/-! A port word in bytes (20_memory.md R42), and a command read back from its bytes and from its number in
the opcode table (30_encoding.md R60 to R65; log entry 16). -/

namespace Sys2Proof

@[simp] theorem length_wordToBytes (v : Word) : (wordToBytes v).length = 32 :=
  length_bigEndian 32 v.toNat

@[simp] theorem ofBigEndian_wordToBytes (v : Word) : ofBigEndian (wordToBytes v) = v.toNat := by
  rw [wordToBytes, ofBigEndian_bigEndian]
  exact Nat.mod_eq_of_lt v.isLt

/-- Byte `k` from the front has `n - 1 - k` bytes below it. -/
theorem bigEndian_getElem? (n v k : Nat) (hk : k < n) :
    (bigEndian n v)[k]? = some (BitVec.ofNat 8 (v / 256 ^ (n - 1 - k))) := by
  induction n generalizing k with
  | zero => omega
  | succ n ih =>
    cases k with
    | zero => simp [bigEndian]
    | succ k =>
      have hbelow : n + 1 - 1 - (k + 1) = n - 1 - k := by omega
      rw [bigEndian, List.getElem?_cons_succ, ih k (by omega), hbelow]

theorem wordToBytes_getElem? (v : Word) (k : Nat) (hk : k < 32) :
    (wordToBytes v)[k]? = some (v.extractLsb' (248 - 8 * k) 8) := by
  have hbits : 256 ^ (32 - 1 - k) = 2 ^ (248 - 8 * k) := by
    rw [show 256 = 2 ^ 8 from rfl, ← pow_mul]
    congr 1
    omega
  rw [wordToBytes, bigEndian_getElem? 32 v.toNat k hk, hbits, BitVec.extractLsb',
    Nat.shiftRight_eq_div_pow]

/-- Settles O7. -/
theorem portWordBytesAreBigEndian : Obligations.PortWordBytesAreBigEndian := fun v =>
  ⟨length_wordToBytes v, by simp, wordToBytes_getElem? v⟩

theorem commandWord_eq_fieldsWord (i : Instr) :
    commandWord i = Machine.fieldsWord (Machine.surfCode i.surface) i.func.code := by
  cases i <;> simp [commandWord, Instr.surface, Instr.func, Func.code, Machine.constFunc,
    Machine.surfCode, Machine.fieldsWord]

theorem instrOf_parts (i : Instr) : instrOf i.surface i.func i.operand = some i := by
  cases i <;> rfl

/-- Every command has a legal word, so the decoder finds its surface and function and keeps its operand. -/
theorem decodeCommand_encode (i : Instr) : decodeCommand (encode i) = .ok i := by
  have hsel : selectFunction (encode i).cmd = .ok (i.surface, i.func) := by
    rw [encode, commandWord_eq_fieldsWord, selectFunction_fields]
  have hinstr : instrOf i.surface i.func (encode i).x = some i := instrOf_parts i
  simp only [decodeCommand, hsel, hinstr]

theorem commandOfBytes_encodeBytes (i : Instr) : commandOfBytes (encodeBytes i) = some (encode i) := by
  simp [commandOfBytes, encodeBytes, encode]

/-- `CMD` is the low 8 of the 264 bits and `X` the 256 above it, so neither reaches into the other. -/
theorem commandOfTableWord_number (c : Command) :
    commandOfTableWord 264 (c.cmd.toNat + 2 ^ 8 * c.x.toNat) = c := by
  have hcmd : c.cmd.toNat < 2 ^ 8 := c.cmd.isLt
  have hx : c.x.toNat < 2 ^ 256 := c.x.isLt
  have hfits : (c.cmd.toNat + 2 ^ 8 * c.x.toNat) % 2 ^ 264 = c.cmd.toNat + 2 ^ 8 * c.x.toNat := by omega
  have hlow : BitVec.ofNat 8 (c.cmd.toNat + 2 ^ 8 * c.x.toNat) = c.cmd :=
    BitVec.eq_of_toNat_eq (by rw [BitVec.toNat_ofNat]; omega)
  have hhigh : (c.cmd.toNat + 2 ^ 8 * c.x.toNat) / 2 ^ 8 = c.x.toNat := by omega
  rw [commandOfTableWord, hfits, hlow, hhigh, BitVec.ofNat_toNat, BitVec.setWidth_eq]

/-- Settles O1: bytes and table number both give back the request `encode` makes, and that decodes to the
command. `Instr` has no ill-formed command, so the hypothesis is not needed. -/
theorem encodedCommandDecodesToItself : Obligations.EncodedCommandDecodesToItself := by
  intro i _
  constructor
  · rw [decodeBytes, commandOfBytes_encodeBytes]
    exact decodeCommand_encode i
  · rw [decodeTableWord, commandOfTableWord_number, decodeCommand_encode]

end Sys2Proof

/-! The decoder's two answers, said once (30_encoding.md R60 to R67), and what follows for the command
words: which are legal, what an illegal one answers, and that the operand has no say in either. -/

namespace Sys2Proof.Machine

theorem instrOf_eq_some {surface : Surface} {func : Func} {x : Word} {i : Instr}
    (h : instrOf surface func x = some i) : i.surface = surface ∧ i.func = func ∧ i.operand = x := by
  unfold instrOf at h
  split at h <;> cases h <;> exact ⟨rfl, rfl, rfl⟩

/-- ISQRT on TYPED is the one pair that is no command (R64 (d)). -/
theorem instrOf_eq_none_iff {surface : Surface} {func : Func} {x : Word} :
    instrOf surface func x = none ↔ surface = .typed ∧ func = .isqrt := by
  unfold instrOf
  split <;> simp

theorem instr_wellFormed (i : Instr) : i.wellFormed = true := by
  cases i <;> rfl

theorem decodeCommand_ok {c : Command} {i : Instr} (h : decodeCommand c = .ok i) :
    selectFunction c.cmd = .ok (i.surface, i.func) ∧ i.operand = c.x := by
  unfold decodeCommand at h
  split at h
  · cases h
  · next surface func hsel =>
    split at h
    · cases h
    · next j hinstr =>
      cases h
      obtain ⟨rfl, rfl, hx⟩ := instrOf_eq_some hinstr
      exact ⟨hsel, hx⟩

/-- A refusal, whatever its reason, is read off the command word alone. -/
theorem decodeCommand_eq_error_iff {c : Command} {e : DecodeError} :
    decodeCommand c = .error e ↔
      selectFunction c.cmd = .error e ∨
      (selectFunction c.cmd = .ok (.typed, .isqrt) ∧ e = .isqrtOnTyped) := by
  cases hsel : selectFunction c.cmd with
  | error e' => simp [decodeCommand, hsel]
  | ok sel =>
    obtain ⟨surface, func⟩ := sel
    cases hinstr : instrOf surface func c.x with
    | none =>
      obtain ⟨rfl, rfl⟩ := instrOf_eq_none_iff.1 hinstr
      simp [decodeCommand, hsel, hinstr, eq_comm]
    | some i =>
      have hlegal : ¬ (surface = .typed ∧ func = .isqrt) := by
        simp [← instrOf_eq_none_iff (x := c.x), hinstr]
      simpa [decodeCommand, hsel, hinstr] using fun hs hf => absurd ⟨hs, hf⟩ hlegal

theorem decodeCommand_error_of_error {cmd : Byte} {x : Word} {e : DecodeError}
    (h : decodeCommand ⟨cmd, x⟩ = .error e) (y : Word) : decodeCommand ⟨cmd, y⟩ = .error e := by
  simpa only [decodeCommand_eq_error_iff] using h

theorem encode_of_decodeCommand {c : Command} {i : Instr} (h : decodeCommand c = .ok i) :
    encode i = c := by
  obtain ⟨hsel, hx⟩ := decodeCommand_ok h
  rw [encode, commandWord_eq_fieldsWord, ← selectFunction_ok hsel, hx]

/-- Settles O2. -/
theorem decodedCommandEncodesBack : Obligations.DecodedCommandEncodesBack := fun _ i h =>
  ⟨encode_of_decodeCommand h, instr_wellFormed i⟩

theorem commandWord_mem_table (i : Instr) :
    commandWord i ∈ [0x00#8, 0x01#8, 0x08#8, 0x09#8, 0x0A#8, 0x0B#8, 0x0C#8, 0x0D#8,
      0x40#8, 0x48#8, 0x49#8, 0x4A#8, 0x4B#8, 0x4C#8, 0x4D#8] := by
  cases i <;> simp [commandWord]

/-- Settles O3: every row is the encoding of its command, and a word that decodes is an encoding. -/
theorem legalCommandWordsAreTheFifteenOfTheTable :
    Obligations.LegalCommandWordsAreTheFifteenOfTheTable := by
  constructor
  · intro x
    exact ⟨decodeCommand_encode (.sqrtRaw x), decodeCommand_encode (.isqrtRaw x),
      decodeCommand_encode (.constRawMax x), decodeCommand_encode (.constRawMin x),
      decodeCommand_encode (.constRawMaxWhole x), decodeCommand_encode (.constRawE x),
      decodeCommand_encode (.constRawPi x), decodeCommand_encode (.constRawSqrtMaxInput x),
      decodeCommand_encode (.sqrtTyped x), decodeCommand_encode (.constTypedMax x),
      decodeCommand_encode (.constTypedMin x), decodeCommand_encode (.constTypedMaxWhole x),
      decodeCommand_encode (.constTypedE x), decodeCommand_encode (.constTypedPi x),
      decodeCommand_encode (.constTypedSqrtMaxInput x)⟩
  · intro c i h
    obtain rfl := encode_of_decodeCommand h
    exact commandWord_mem_table i

/-- The four cases of R64, in its order. -/
def IllegalWord (cmd : Byte) : Prop :=
  (surfField cmd = 0b10#2 ∨ surfField cmd = 0b11#2) ∨
  rsvField cmd ≠ 0b00#2 ∨
  funcField cmd ∈ [0x2#4, 0x3#4, 0x4#4, 0x5#4, 0x6#4, 0x7#4, 0xE#4, 0xF#4] ∨
  (surfField cmd = 0b01#2 ∧ funcField cmd = 0x1#4)

theorem illegalWord_of_decodeCommand_error {c : Command} {e : DecodeError}
    (h : decodeCommand c = .error e) : IllegalWord c.cmd := by
  obtain hsel | ⟨hsel, -⟩ := decodeCommand_eq_error_iff.1 h
  · obtain ⟨-, hsurf⟩ | ⟨-, hrsv⟩ | ⟨-, hfunc⟩ := selectFunction_error hsel
    · exact .inl hsurf
    · exact .inr (.inl hrsv)
    · exact .inr (.inr (.inl hfunc))
  · have hboth : surfField c.cmd = 0b01#2 ∧ funcField c.cmd = 0x1#4 := by
      simp [selectFunction_ok hsel, surfCode, Func.code]
    exact .inr (.inr (.inr hboth))

theorem not_illegalWord_commandWord (i : Instr) : ¬ IllegalWord (commandWord i) := by
  cases i <;> simp only [IllegalWord, commandWord] <;> decide

theorem decodeCommand_error_iff_illegalWord {c : Command} :
    (∃ e, decodeCommand c = .error e) ↔ IllegalWord c.cmd := by
  constructor
  · rintro ⟨e, h⟩
    exact illegalWord_of_decodeCommand_error h
  · intro hill
    cases h : decodeCommand c with
    | error e => exact ⟨e, rfl⟩
    | ok i =>
      obtain rfl := encode_of_decodeCommand h
      exact absurd hill (not_illegalWord_commandWord i)

theorem runCommand_illegal {c : Command} {e : DecodeError} (h : decodeCommand c = .error e) (s : State) :
    runCommand c s = respond (raiseIllegalCommand (surfField c.cmd)) s := by
  rw [runCommand, h, execIllegal]

/-- All 256 words, looked up. -/
theorem illegal_word_count :
    ((List.range 256).filter (fun n => (decodeTableWord 8 n).isNone)).length = 241 := by
  decide +kernel

/-- Settles O4. -/
theorem illegalCommandWordsAnswerIll : Obligations.IllegalCommandWordsAnswerIll := by
  refine ⟨fun _ => decodeCommand_error_iff_illegalWord, ?_, illegal_word_count⟩
  intro c s e h hrst hroom
  exact (runCommand_illegal h s).trans (respond_enabled _ hrst hroom)

theorem length_of_commandOfBytes {bytes : List Byte} {c : Command} (h : commandOfBytes bytes = some c) :
    bytes.length = 33 := by
  cases bytes with
  | nil => cases h
  | cons cmd operand =>
    have hlen : operand.length = 32 := by
      by_contra hne
      simp [commandOfBytes, hne] at h
    simp [hlen]

/-- A surface and a function that is legal on it name a command, whatever the operand. -/
theorem decodeCommand_fieldsWord {surface : Surface} {func : Func} (h : func.legalOn surface = true)
    (x : Word) : ∃ i, decodeCommand ⟨fieldsWord (surfCode surface) func.code, x⟩ = .ok i ∧
      i.func = func ∧ i.surface = surface ∧ i.operand = x := by
  cases hd : decodeCommand ⟨fieldsWord (surfCode surface) func.code, x⟩ with
  | error e =>
    have hpair : surface = .typed ∧ func = .isqrt := by
      simpa [selectFunction_fields] using (decodeCommand_eq_error_iff.1 hd).imp_right And.left
    obtain ⟨rfl, rfl⟩ := hpair
    cases h
  | ok i =>
    obtain ⟨hsel, hoperand⟩ := decodeCommand_ok hd
    have hsame : (surface, func) = (i.surface, i.func) :=
      Except.ok.inj ((selectFunction_fields surface func).symm.trans hsel)
    obtain ⟨hsurface, hfunc⟩ := Prod.mk.inj hsame
    exact ⟨i, rfl, hfunc.symm, hsurface.symm, hoperand⟩

/-- Settles O5. -/
theorem decoderReadsOnlyTheCommandWord : Obligations.DecoderReadsOnlyTheCommandWord := by
  refine ⟨?_, fun _ _ y _ h => decodeCommand_error_of_error h y, ?_⟩
  · intro cmd x y i h
    obtain ⟨hsel, -⟩ := decodeCommand_ok h
    obtain rfl : cmd = fieldsWord (surfCode i.surface) i.func.code := selectFunction_ok hsel
    exact decodeCommand_fieldsWord (instr_wellFormed i) y
  · intro bytes i h
    cases hc : commandOfBytes bytes with
    | none => simp [decodeBytes, hc] at h
    | some c => exact length_of_commandOfBytes hc

/-- Settles O29. -/
theorem everyRequestAppendsItsExecRecord : Obligations.EveryRequestAppendsItsExecRecord :=
  fun c s hrst hroom => (runCommand_eq_respond c s).trans (respond_enabled _ hrst hroom)

theorem decodeBytes_encodeBytes (i : Instr) : decodeBytes (encodeBytes i) = .ok i :=
  (encodedCommandDecodesToItself i (instr_wellFormed i)).1

/-- Settles O6: the four legal ones are the bytes the encoder writes. -/
theorem writtenOutWordsDecode : Obligations.WrittenOutWordsDecode :=
  ⟨decodeBytes_encodeBytes (.sqrtRaw 0x3782dace9d900000#256),
    decodeBytes_encodeBytes (.sqrtTyped 0xde0b6b3a76400000#256),
    decodeBytes_encodeBytes (.isqrtRaw 81#256), decodeBytes_encodeBytes (.constTypedE 0x1234#256),
    by decide⟩

end Sys2Proof.Machine

/-! The host's tools: the assembler emits legal commands (30_encoding.md R69 to R71), and a listing line
reads back (R72). -/

namespace Sys2Proof.Machine

theorem withLiteral_ok {cmd : Byte} {x : Literal} {c : Command} (h : withLiteral cmd x = .ok c) :
    ∃ w, c = ⟨cmd, w⟩ := by
  unfold withLiteral at h
  split at h
  · next w _ => exact ⟨w, (Except.ok.inj h).symm⟩
  · cases h

theorem assemble_fields {line : AsmLine} {c : Command} (h : assemble line = .ok c)
    (hraw : ∀ b x, line ≠ .raw b x) : ∃ (surface : Surface) (func : Func) (w : Word),
      func.legalOn surface = true ∧ c = ⟨fieldsWord (surfCode surface) func.code, w⟩ := by
  cases line with
  | sqrt surface x =>
    obtain ⟨w, hc⟩ := withLiteral_ok h
    exact ⟨surface, .sqrt, w, rfl, hc⟩
  | isqrt surface x =>
    cases surface with
    | raw =>
      obtain ⟨w, hc⟩ := withLiteral_ok h
      exact ⟨.raw, .isqrt, w, rfl, hc⟩
    | typed => cases h
  | const surface k => exact ⟨surface, .const k, bv256 0, rfl, (Except.ok.inj h).symm⟩
  | raw cmd x => exact absurd rfl (hraw cmd x)

/-- Settles O50. -/
theorem assembledMnemonicsAreLegalCommands : Obligations.AssembledMnemonicsAreLegalCommands := by
  refine ⟨?_, ?_, fun _ => rfl⟩
  · intro line c h hraw
    obtain ⟨surface, func, w, hlegal, rfl⟩ := assemble_fields h hraw
    obtain ⟨i, hi, -, -, -⟩ := decodeCommand_fieldsWord hlegal w
    exact ⟨i, hi⟩
  · intro surface k c h
    obtain rfl := Except.ok.inj h
    obtain ⟨i, hi, hfunc, hsurface, -⟩ :=
      decodeCommand_fieldsWord (surface := surface) (func := .const k) rfl (bv256 0)
    exact ⟨rfl, i, hi, hfunc, hsurface⟩

/-- A word written in the hex digits that fill it reads back as that word. -/
theorem digitsOf_fixedDigits_word {w : Nat} (n : Nat) (v : BitVec w) (hw : 2 ^ w = 16 ^ n) :
    ∃ ds, digitsOf hexDigit (fixedDigits 16 n v.toNat) = some ds ∧ ds.length = n ∧
      BitVec.ofNat w (ofDigits 16 ds) = v := by
  obtain ⟨ds, hread, hlen, hval⟩ := digitsOf_fixedDigits n v.toNat
  refine ⟨ds, hread, hlen, ?_⟩
  rw [hval, ← hw, Nat.mod_eq_of_lt v.isLt, BitVec.ofNat_toNat, BitVec.setWidth_eq]

theorem length_of_digitsOf {digit : Char → Option Nat} {cs : List Char} {ds : List Nat}
    (h : digitsOf digit cs = some ds) : ds.length = cs.length := by
  induction cs generalizing ds with
  | nil => cases h; rfl
  | cons ch rest ih =>
    unfold digitsOf at h
    split at h
    · next d ds' _ hrest => cases h; simp [ih hrest]
    · cases h

/-- A line of two command digits, a colon and 64 operand digits is read digit by digit, and what stands
after the operand is not. -/
theorem parseListing_digits {cmdText xText : List Char} {cmdDigits xDigits : List Nat}
    (hcmd : digitsOf hexDigit cmdText = some cmdDigits) (hcmdLen : cmdDigits.length = 2)
    (hx : digitsOf hexDigit xText = some xDigits) (hxLen : xDigits.length = 64) (rest : List Char) :
    parseListing (cmdText ++ [' ', ':', ' '] ++ xText ++ rest) =
      some ⟨BitVec.ofNat 8 (ofDigits 16 cmdDigits), BitVec.ofNat 256 (ofDigits 16 xDigits)⟩ := by
  obtain ⟨high, low, rfl⟩ : ∃ high low, cmdText = [high, low] :=
    List.length_eq_two.1 ((length_of_digitsOf hcmd).symm.trans hcmdLen)
  have htake : (xText ++ rest).take 64 = xText :=
    List.take_left' ((length_of_digitsOf hx).symm.trans hxLen)
  simp [parseListing, htake, hcmd, hx, hcmdLen, hxLen]

theorem parseListing_listing_append (c : Command) (rest : List Char) :
    parseListing (listing c ++ rest) = some c := by
  obtain ⟨cmdDigits, hcmd, hcmdLen, hcmdVal⟩ := digitsOf_fixedDigits_word 2 c.cmd rfl
  obtain ⟨xDigits, hx, hxLen, hxVal⟩ := digitsOf_fixedDigits_word 64 c.x rfl
  rw [listing, parseListing_digits hcmd hcmdLen hx hxLen, hcmdVal, hxVal]

/-- Settles O51. -/
theorem listingReadsBack : Obligations.ListingReadsBack := by
  intro c comment
  constructor
  · simpa using parseListing_listing_append c []
  · rw [listingWithComment, List.append_assoc]
    exact parseListing_listing_append c _

end Sys2Proof.Machine

/-! The values of the named constants, and the facts about the overflow boundary (40_constants.md R80, R82,
R83). -/

namespace Sys2Proof.Machine

theorem sint_rom_maxSD59x18 : sint (rom .maxSD59x18) = 2 ^ 255 - 1 := by decide

theorem sint_rom_maxWholeSD59x18 :
    sint (rom .maxWholeSD59x18) = (2 ^ 255 - 1) / 10 ^ 18 * 10 ^ 18 := by decide

theorem sint_rom_sqrtMaxInput : sint (rom .sqrtMaxInput) = sqrtMaxInput := by decide

/-- R83 (a). -/
theorem sqrtMaxInput_eq_div_add_one : (sqrtMaxInput : Int) = (2 ^ 255 - 1) / 10 ^ 18 + 1 := by decide

/-- R83 (b). -/
theorem sqrtMaxInput_mul_scale : (sqrtMaxInput : Int) * 10 ^ 18 =
    0x80000000000000000000000000000000000000000000000002e2f34caba40000 := by decide

/-- The boundary is inclusive (R83): the root is given at it, and overflow reported one above it. -/
theorem sqrtKernel_status_at_boundary (surf : Code) :
    (sqrtKernel sqrtMaxInput surf).status = .ok ∧
    (sqrtKernel (sqrtMaxInput + 1) surf).status = .ovf := by
  constructor
  · rw [sqrtKernel_root (by decide) le_rfl]
  · rw [sqrtKernel_overflow (Int.lt_succ _), raiseOverflow]

/-- Settles O22: the words' values, then R83 (a), (b) and (c) about the literal; (c) is the floor of (a). -/
theorem namedConstantsHaveTheirDefinedValues : Obligations.NamedConstantsHaveTheirDefinedValues := by
  unfold Obligations.NamedConstantsHaveTheirDefinedValues
  rw [sint_rom_sqrtMaxInput, sint_rom_maxSD59x18, sqrtMaxInput_mul_scale]
  have hfloor : ((sqrtMaxInput : Int) - 1) * 10 ^ 18 ≤ 2 ^ 255 - 1 := by
    rw [sqrtMaxInput_eq_div_add_one, Int.add_sub_cancel]
    exact Int.ediv_mul_le _ (by decide)
  exact ⟨rfl, sint_rom_maxWholeSD59x18, rfl, rfl, sqrtMaxInput_eq_div_add_one, rfl, by decide, by decide,
    hfloor, sqrtKernel_status_at_boundary⟩

end Sys2Proof.Machine

/-! ISQRT: the floor root as a word, its bound and its monotonicity, the corner cases, and the reference
algorithm (41_isqrt.md R90 to R95). -/

namespace Sys2Proof.Machine

theorem isqrt_le_isqrt {m n : Nat} (h : m ≤ n) (hn : n < 2 ^ 256) : isqrt m ≤ isqrt n := by
  have hm : isqrt m * isqrt m ≤ m := (isqrt_spec (by omega)).1
  have hroot : n < (isqrt n + 1) * (isqrt n + 1) := (isqrt_spec hn).2
  exact Nat.le_of_lt_succ (Nat.mul_self_lt_mul_self_iff.1 (hm.trans_lt (h.trans_lt hroot)))

theorem isqrt_top : isqrt (2 ^ 256 - 1) = 2 ^ 128 - 1 := isqrt_eq (by decide) (by decide) (by decide)

theorem uint_bv256_isqrt {m : Nat} (h : m < 2 ^ 256) : uint (bv256 (isqrt m)) = isqrt m :=
  (uint_bv256_root (isqrt_lt h)).1

theorem bv256_uint (v : Word) : bv256 (uint v) = v := BitVec.eq_of_toNat_eq (uint_bv256 v.isLt)

/-- ISQRT.RAW where `Accept` is enabled (R91). -/
theorem exec_isqrtRaw_enabled {x r : Word} {s : State} (hroot : isqrt (uint x) = uint r)
    (hrst : s.rst = false) (hroom : s.q.length < Config.depth) :
    exec (.isqrtRaw x) s = .next { s with q := s.q ++ [⟨.ok, 0b00#2, r⟩] } := by
  have hword : bv256 (isqrt (uint x)) = r := by rw [hroot, bv256_uint]
  subst hword
  exact respond_enabled _ hrst hroom

/-- Settles O16: the word's number is `isqrt`, the floor root; 0x41 selects ISQRT on TYPED, which R64 (d)
makes illegal. -/
theorem isqrtIsTheUniqueFloorRoot : Obligations.IsqrtIsTheUniqueFloorRoot := by
  intro x s hrst hroom
  have hword : (bv256 (isqrt x.toNat)).toNat = isqrt x.toNat := uint_bv256_isqrt x.isLt
  obtain ⟨hlo, hhi⟩ := isqrt_spec x.isLt
  constructor
  · refine ⟨bv256 (isqrt x.toNat), ?_, ?_, ?_, exec_isqrtRaw_enabled hword.symm hrst hroom⟩
    · rwa [hword]
    · rwa [hword]
    · intro q hqlo hqhi
      rw [hword]
      exact floor_root_unique hqlo hqhi hlo hhi
  · have hrecord : execRecord ⟨0x41#8, x⟩ = raiseIllegalCommand surfTyped := execRecord_isqrt_typed x
    rw [runCommand_eq_respond, hrecord]
    exact respond_enabled _ hrst hroom

/-- A word whose number is below `2^128` has bits [255:128] zero. -/
theorem upperHalf_eq_zero {v : Word} (h : uint v < 2 ^ 128) : v.extractLsb' 128 128 = 0#128 := by
  apply BitVec.eq_of_toNat_eq
  have hshift : v.toNat >>> 128 = 0 := Nat.shiftRight_eq_zero _ _ h
  rw [BitVec.extractLsb'_toNat, hshift]
  rfl

/-- Settles O17. -/
theorem isqrtIsBoundedAndMonotone : Obligations.IsqrtIsBoundedAndMonotone := by
  refine ⟨fun m hm => ?_, isqrt_top, fun m n => isqrt_le_isqrt⟩
  have hlt : isqrt m < 2 ^ 128 := isqrt_lt hm
  have hword : uint (bv256 (isqrt m)) = isqrt m := uint_bv256_isqrt hm
  exact ⟨by omega, upperHalf_eq_zero (by rwa [hword]), hword⟩

theorem four_pow_eq_sq (n : Nat) : 4 ^ n = 2 ^ n * 2 ^ n := Nat.mul_pow 2 2 n

theorem four_pow_succ_div (n : Nat) : 4 ^ (n + 1) / 4 = 4 ^ n := by
  rw [pow_succ, Nat.mul_div_cancel _ four_pos]

/-- The search from 0 does not look at a bit whose square is above `m`. -/
theorem isqrtBits_skip {n m : Nat} (h : m < 4 ^ n) : isqrtBits (n + 1) m 0 = isqrtBits n m 0 := by
  rw [isqrtBits, if_neg (by rw [Nat.zero_add, ← four_pow_eq_sq]; omega)]

/-- The second loop of R93 is the search one bit at a time. With `n` bits to go and the root `r` so far,
`op` is what `r * r` leaves of `m`, `res` is `r * 2^n`, and `one` is `4^(n-1)`, or 0 at the end, which
`4^n / 4` is in both cases. -/
theorem isqrtRefLoop_eq_isqrtBits {n fuel op r m : Nat} (hfuel : n ≤ fuel) (hm : r * r + op = m) :
    isqrtRefLoop fuel op (r * 2 ^ n) (4 ^ n / 4) = isqrtBits n m r := by
  induction n generalizing fuel op r with
  | zero => cases fuel <;> simp [isqrtRefLoop, isqrtBits]
  | succ n ih =>
    obtain ⟨fuel, rfl⟩ := Nat.exists_eq_add_one.2 (Nat.zero_lt_of_lt hfuel)
    have hres : r * 2 ^ (n + 1) / 2 = r * 2 ^ n := by
      rw [pow_succ, ← Nat.mul_assoc, Nat.mul_div_cancel _ two_pos]
    have hsq : (r + 2 ^ n) * (r + 2 ^ n) = r * r + (r * 2 ^ (n + 1) + 4 ^ n) := by
      rw [four_pow_eq_sq]; ring
    have hroot : r * 2 ^ n + 4 ^ n = (r + 2 ^ n) * 2 ^ n := by rw [four_pow_eq_sq, Nat.add_mul]
    rw [isqrtRefLoop, isqrtBits, four_pow_succ_div, hres, hroot, if_neg (by positivity)]
    by_cases htake : op ≥ r * 2 ^ (n + 1) + 4 ^ n
    · rw [if_pos htake, if_pos (by omega)]
      exact ih (by omega) (by omega)
    · rw [if_neg htake, if_neg (by omega)]
      exact ih (by omega) hm

theorem isqrtRefLoop_zero_eq_isqrtBits {n m : Nat} (hn : n ≤ 128) :
    isqrtRefLoop 128 m 0 (4 ^ n / 4) = isqrtBits n m 0 := by
  simpa using isqrtRefLoop_eq_isqrtBits (r := 0) hn (Nat.zero_add m)

/-- Both loops from `one = 4^(n-1)`: a round of the first skips a bit that the search would not take. -/
theorem isqrtRefLoop_start_eq_isqrtBits {n m : Nat} (fuel : Nat) (hn : n ≤ 128) :
    isqrtRefLoop 128 m 0 (isqrtRefStart fuel m (4 ^ n / 4)) = isqrtBits n m 0 := by
  induction fuel generalizing n with
  | zero => exact isqrtRefLoop_zero_eq_isqrtBits hn
  | succ fuel ih =>
    rw [isqrtRefStart]
    split
    · next hskip =>
      cases n with
      | zero => exact absurd hskip (Nat.not_lt_zero m)
      | succ n =>
        rw [four_pow_succ_div] at hskip ⊢
        rw [isqrtBits_skip hskip]
        exact ih (by omega)
    · exact isqrtRefLoop_zero_eq_isqrtBits hn

/-- Settles O19: for every operand, of any width, the two loops make the decisions of `isqrt`. -/
theorem referenceRootAlgorithmAgrees : Obligations.ReferenceRootAlgorithmAgrees :=
  fun _ _ => isqrtRefLoop_start_eq_isqrtBits 128 le_rfl

/-- Settles O18: each root by R90's bounds on its square. -/
theorem isqrtCornerCases : Obligations.IsqrtCornerCases := by
  have hbit255 : isqrt (2 ^ 255) = 240615969168004511545033772477625056927 :=
    isqrt_eq (by decide) (by decide) (by decide)
  refine ⟨?_, ?_, ?_, ?_, ?_, ?_, ?_, ?_, ?_, ?_, hbit255, ?_, ?_, isqrt_top, fun s hrst hroom =>
    ⟨exec_isqrtRaw_enabled isqrt_top hrst hroom, exec_isqrtRaw_enabled hbit255 hrst hroom⟩⟩
  all_goals exact isqrt_eq (by decide) (by decide) (by decide)

end Sys2Proof.Machine

/-! SQRT: the kernel on its whole range, its value at the boundary, and what both surfaces append
(42_sqrt.md R100 to R112). -/

namespace Sys2Proof.Machine

theorem sint_ofNat {n : Nat} (h : n < 2 ^ 255) : sint (BitVec.ofNat 256 n) = n := by
  rw [sint_eq_toInt, BitVec.toInt_ofNat', Int.bmod_eq_of_le (by omega) (by omega)]

theorem bv256_natCast (n : Nat) : bv256 n = BitVec.ofNat 256 n := by
  apply BitVec.eq_of_toNat_eq
  rw [bv256, BitVec.toNat_ofNat, BitVec.toNat_ofNat]
  omega

/-- Both surfaces append the kernel's record where `Accept` is enabled (R101, R102). -/
theorem exec_sqrt_enabled {x r : Word} {s : State} {status : Status}
    (hkernel : ∀ surf, sqrtKernel (sint x) surf = ⟨status, surf, r⟩)
    (hrst : s.rst = false) (hroom : s.q.length < Config.depth) :
    exec (.sqrtRaw x) s = .next { s with q := s.q ++ [⟨status, 0b00#2, r⟩] } ∧
    exec (.sqrtTyped x) s = .next { s with q := s.q ++ [⟨status, 0b01#2, r⟩] } :=
  ⟨(congrArg (respond · s) (hkernel surfRaw)).trans (respond_enabled _ hrst hroom),
    (congrArg (respond · s) (hkernel surfTyped)).trans (respond_enabled _ hrst hroom)⟩

theorem rescale_eq {x : Int} (h : 0 ≤ x) : (rescale x : Int) = x * 10 ^ 18 := by
  rw [rescale, Nat.cast_mul, Int.toNat_of_nonneg h]
  rfl

theorem rescale_le_rescale {x y : Int} (h : x ≤ y) : rescale x ≤ rescale y :=
  Nat.mul_le_mul_right _ (Int.toNat_le_toNat h)

theorem isqrt_rescale_zero : isqrt (rescale 0) = 0 := isqrt_eq (by decide) (by decide) (by decide)

theorem isqrt_rescale_sqrtMaxInput :
    isqrt (rescale sqrtMaxInput) = 240615969168004511545033772477625056927 :=
  isqrt_eq (by decide) (by decide) (by decide)

theorem isqrt_rescale_sqrtMaxInput_sub_one :
    isqrt (rescale (sqrtMaxInput - 1)) = 240615969168004511545033772477625056927 :=
  isqrt_eq (by decide) (by decide) (by decide)

theorem isqrt_rescale_le_isqrt_rescale {x y : Int} (h : x ≤ y) (hy : y ≤ sqrtMaxInput) :
    isqrt (rescale x) ≤ isqrt (rescale y) :=
  isqrt_le_isqrt (rescale_le_rescale h) (rescale_lt hy)

/-- Step 4 gives the kernel's answer on the whole range, at 0 as well (R103). -/
theorem sqrtKernel_inRange {x : Int} (h : 0 ≤ x) (h' : x ≤ sqrtMaxInput) (surf : Code) :
    sqrtKernel x surf = ⟨.ok, surf, bv256 (isqrt (rescale x))⟩ := by
  obtain rfl | hpos := h.eq_or_lt
  · rw [sqrtKernel_zero, isqrt_rescale_zero]
    rfl
  · exact sqrtKernel_root hpos h' surf

theorem sqrtKernel_status_eq_ok_iff {x : Int} {surf : Code} :
    (sqrtKernel x surf).status = .ok ↔ 0 ≤ x ∧ x ≤ sqrtMaxInput := by
  refine ⟨fun hok => ?_, fun ⟨h, h'⟩ => by rw [sqrtKernel_inRange h h']⟩
  by_contra hout
  obtain hneg | hovf : x < 0 ∨ (sqrtMaxInput : Int) < x := by omega
  · simp [sqrtKernel_negative hneg, raiseNegativeInput] at hok
  · simp [sqrtKernel_overflow hovf, raiseOverflow] at hok

theorem uint_sqrtKernel_result {x : Int} (h : 0 ≤ x) (h' : x ≤ sqrtMaxInput) (surf : Code) :
    uint (sqrtKernel x surf).result = isqrt (rescale x) := by
  rw [sqrtKernel_inRange h h', uint_bv256_isqrt (rescale_lt h')]

theorem sqrtKernel_sqrtMaxInput (surf : Code) : sqrtKernel sqrtMaxInput surf =
    ⟨.ok, surf, 240615969168004511545033772477625056927#256⟩ := by
  rw [sqrtKernel_inRange (by decide) le_rfl, isqrt_rescale_sqrtMaxInput]
  rfl

theorem sqrtKernel_sqrtMaxInput_sub_one (surf : Code) : sqrtKernel (sqrtMaxInput - 1) surf =
    ⟨.ok, surf, 240615969168004511545033772477625056927#256⟩ := by
  rw [sqrtKernel_inRange (by decide) (by decide), isqrt_rescale_sqrtMaxInput_sub_one]
  rfl

/-- Settles O10: above the boundary by the third check, at it by step 4. -/
theorem sqrtAboveTheBoundaryReportsOvf : Obligations.SqrtAboveTheBoundaryReportsOvf := by
  refine fun x s hrst hroom => ⟨fun habove => ?_, fun hat => ?_⟩
  · exact exec_sqrt_enabled (sqrtKernel_overflow habove) hrst hroom
  · refine exec_sqrt_enabled (fun surf => ?_) hrst hroom
    rw [hat]
    exact sqrtKernel_sqrtMaxInput surf

/-- Settles O11: the word's number is the floor root of the exact product. -/
theorem sqrtInRangeIsTheFloorRoot : Obligations.SqrtInRangeIsTheFloorRoot := by
  intro x s hpos hle hrst hroom
  have hlt : rescale (sint x) < 2 ^ 256 := rescale_lt hle
  have hword : (bv256 (isqrt (rescale (sint x)))).toNat = isqrt (rescale (sint x)) :=
    uint_bv256_isqrt hlt
  obtain ⟨hlo, hhi⟩ := isqrt_spec hlt
  refine ⟨bv256 (isqrt (rescale (sint x))), ?_, ?_,
    exec_sqrt_enabled (sqrtKernel_root hpos hle) hrst hroom⟩
  · rw [hword, ← rescale_eq (by omega)]
    exact_mod_cast hlo
  · rw [hword, ← rescale_eq (by omega)]
    exact_mod_cast hhi

/-- Settles O13: the root at the boundary bounds every root in range, and it is below `2^128`. -/
theorem sqrtResultStaysBelowItsBound : Obligations.SqrtResultStaysBelowItsBound := by
  refine ⟨fun x surf hok => ?_, sqrtKernel_sqrtMaxInput⟩
  obtain ⟨hnonneg, hle⟩ := sqrtKernel_status_eq_ok_iff.1 hok
  have hbound : isqrt (rescale (sint x)) ≤ 240615969168004511545033772477625056927 :=
    (isqrt_rescale_le_isqrt_rescale hle le_rfl).trans_eq isqrt_rescale_sqrtMaxInput
  rw [sqrtKernel_inRange hnonneg hle]
  obtain ⟨huint, hsint⟩ := uint_bv256_root (isqrt_lt (rescale_lt hle))
  exact ⟨by rwa [huint], upperHalf_eq_zero (huint.trans_lt (isqrt_lt (rescale_lt hle))),
    by rw [hsint, huint]⟩

/-- Settles O14: the product, its root and the word that carries it are monotone; the roots one below the
boundary and at it are equal. -/
theorem sqrtIsMonotone : Obligations.SqrtIsMonotone := by
  refine ⟨fun x y surf hnonneg hxy hy => ?_,
    fun surf => ⟨sqrtKernel_sqrtMaxInput_sub_one surf, sqrtKernel_sqrtMaxInput surf⟩⟩
  have hx : sint x ≤ sqrtMaxInput := hxy.trans hy
  have hy0 : 0 ≤ sint y := hnonneg.trans hxy
  refine ⟨sqrtKernel_status_eq_ok_iff.2 ⟨hnonneg, hx⟩, sqrtKernel_status_eq_ok_iff.2 ⟨hy0, hy⟩, ?_⟩
  rw [uint_sqrtKernel_result hnonneg hx, uint_sqrtKernel_result hy0 hy]
  exact isqrt_rescale_le_isqrt_rescale hxy hy

/-- The product of `fp(k^2)` is the square of `fp(k)`. -/
theorem isqrt_rescale_square {k : Nat} (h : ((k ^ 2 * 10 ^ 18 : Nat) : Int) ≤ sqrtMaxInput) :
    isqrt (rescale (k ^ 2 * 10 ^ 18 : Nat)) = k * 10 ^ 18 := by
  have hsq : rescale (k ^ 2 * 10 ^ 18 : Nat) = k * 10 ^ 18 * (k * 10 ^ 18) := by
    rw [rescale, Int.toNat_natCast, scale]
    ring
  refine isqrt_eq (rescale_lt h) hsq.ge ?_
  rw [hsq]
  exact Nat.mul_self_lt_mul_self (Nat.lt_succ_self _)

theorem sqrtKernel_square {k : Nat} (h : ((k ^ 2 * 10 ^ 18 : Nat) : Int) ≤ sqrtMaxInput) (surf : Code) :
    sqrtKernel (k ^ 2 * 10 ^ 18 : Nat) surf = ⟨.ok, surf, BitVec.ofNat 256 (k * 10 ^ 18)⟩ := by
  rw [sqrtKernel_inRange (Int.natCast_nonneg _) h, isqrt_rescale_square h, bv256_natCast]

/-- The range of `k` in R112: the next `k` is out of range. -/
theorem square_inRange_iff {k : Nat} :
    k ^ 2 * 10 ^ 18 ≤ 57896044618658097711785492504343953926634992332820282019729 ↔
      k ≤ 240615969168004511545 := by
  constructor
  · intro h
    by_contra hk
    have hnext : 240615969168004511546 ^ 2 ≤ k ^ 2 := Nat.pow_le_pow_left (by omega) 2
    omega
  · intro hk
    have hlast : k ^ 2 ≤ 240615969168004511545 ^ 2 := Nat.pow_le_pow_left hk 2
    omega

/-- Settles O15: the product is a square, whose root is exact. -/
theorem sqrtOfPerfectSquareIsExact : Obligations.SqrtOfPerfectSquareIsExact := by
  refine ⟨fun k s hle hrst hroom => exec_sqrt_enabled (fun surf => ?_) hrst hroom,
    fun k => square_inRange_iff⟩
  rw [sint_ofNat (by omega)]
  exact sqrtKernel_square (Int.ofNat_le.2 hle) surf

/-- Settles O8: by the first check, and by the root of a product that is 0. -/
theorem sqrtOfZeroIsZero : Obligations.SqrtOfZeroIsZero := by
  refine ⟨fun x s hzero hrst hroom => exec_sqrt_enabled (fun surf => ?_) hrst hroom, ?_⟩
  · rw [hzero, sqrtKernel_zero]
    rfl
  · rw [isqrt_rescale_zero]
    rfl

/-- Settles O9: by the second check, the same on both surfaces. -/
theorem sqrtOfNegativeInputReportsNeg : Obligations.SqrtOfNegativeInputReportsNeg :=
  fun _ _ hneg => exec_sqrt_enabled (sqrtKernel_negative hneg)

/-- Settles O12: the product at both ends of the range, and one below the boundary; between them it is
monotone. -/
theorem rescaledProductFitsAnUnsignedWord : Obligations.RescaledProductFitsAnUnsignedWord := by
  intro x hpos hle
  refine ⟨rescale_eq (by omega), ?_, ?_, rescale_lt hle, fun hbelow => ?_, fun hat => ?_⟩
  · have hfirst : 10 ^ 18 = rescale 1 := by decide
    exact hfirst.trans_le (rescale_le_rescale hpos)
  · have hlast : rescale sqrtMaxInput =
        57896044618658097711785492504343953926634992332820282019729 * 10 ^ 18 := by decide
    exact (rescale_le_rescale hle).trans_eq hlast
  · have hbit255 : rescale ((sqrtMaxInput : Int) - 1) < 2 ^ 255 := by decide
    exact (rescale_le_rescale hbelow).trans_lt hbit255
  · rw [hat]
    rfl

end Sys2Proof.Machine

/-! The two surfaces share one kernel and one ROM, and the tag alone tells their responses apart
(43_dual_api.md R121 to R123). -/

namespace Sys2Proof.Machine

/-- The kernel's surface goes into the record's tag and nowhere else (R121). -/
theorem sqrtKernel_retag (x : Int) (surf surf' : Code) :
    sqrtKernel x surf' = { sqrtKernel x surf with surf := surf' } := by
  obtain hneg | rfl | hpos := lt_trichotomy x 0
  · rw [sqrtKernel_negative hneg, sqrtKernel_negative hneg]
    rfl
  · rw [sqrtKernel_zero, sqrtKernel_zero]
  · obtain hle | hovf := le_or_gt x sqrtMaxInput
    · rw [sqrtKernel_root hpos hle, sqrtKernel_root hpos hle]
    · rw [sqrtKernel_overflow hovf, sqrtKernel_overflow hovf]
      rfl

@[simp] theorem sqrtKernel_surf (x : Int) (surf : Code) : (sqrtKernel x surf).surf = surf :=
  congrArg Response.surf (sqrtKernel_retag x surf surf)

/-- Every branch of R66 tags its record with the request's own SURF field, a reserved one too. -/
@[simp] theorem execRecord_surf (c : Command) : (execRecord c).surf = surfField c.cmd := by
  dsimp only [execRecord]
  split_ifs
  · rfl
  · exact sqrtKernel_surf (sint c.x) (surfField c.cmd)
  · rfl
  · rfl
  · split <;> rfl

/-- A function legal on both surfaces has the RAW record under the TYPED tag on the TYPED surface: by the
shared kernel for SQRT, by the shared ROM for CONST. -/
theorem execRecord_typed_eq_raw {func : Func} (h : func.legalOn .typed = true) (x : Word) :
    execRecord ⟨fieldsWord (surfCode .typed) func.code, x⟩ =
      { execRecord ⟨fieldsWord (surfCode .raw) func.code, x⟩ with surf := surfCode .typed } := by
  cases func with
  | sqrt =>
    rw [execRecord_sqrt, execRecord_sqrt]
    exact sqrtKernel_retag (sint x) (surfCode .raw) (surfCode .typed)
  | isqrt => cases h
  | const k =>
    rw [execRecord_const, execRecord_const]
    rfl

/-- The FUNC codes of R123 are those of the functions legal on both surfaces. -/
theorem exists_func_of_code {f : BitVec 4} (h : f = 0x0#4 ∨ (0x8#4 ≤ f ∧ f ≤ 0xD#4)) :
    ∃ func : Func, func.legalOn .typed = true ∧ func.code = f := by
  have hcodes : f ∈ [0x0#4, 0x8#4, 0x9#4, 0xA#4, 0xB#4, 0xC#4, 0xD#4] := by revert f; decide
  simp only [List.mem_cons, List.not_mem_nil, or_false] at hcodes
  obtain rfl | rfl | rfl | rfl | rfl | rfl | rfl := hcodes
  · exact ⟨.sqrt, rfl, rfl⟩
  · exact ⟨.const .maxSD59x18, rfl, rfl⟩
  · exact ⟨.const .minSD59x18, rfl, rfl⟩
  · exact ⟨.const .maxWholeSD59x18, rfl, rfl⟩
  · exact ⟨.const .e, rfl, rfl⟩
  · exact ⟨.const .pi, rfl, rfl⟩
  · exact ⟨.const .sqrtMaxInput, rfl, rfl⟩

theorem response_eq_mk_iff {r : Response} {status : Status} {surf : Code} {result : Word} :
    r = ⟨status, surf, result⟩ ↔ r.status = status ∧ r.surf = surf ∧ r.result = result := by
  cases r
  simp

/-- Where `Accept` is enabled, the record a request appends is R66's and no other. -/
theorem runCommand_appends_iff {c : Command} {r : Response} {s : State} (hrst : s.rst = false)
    (hroom : s.q.length < Config.depth) :
    runCommand c s = .next { s with q := s.q ++ [r] } ↔ execRecord c = r := by
  rw [everyRequestAppendsItsExecRecord c s hrst hroom]
  simp

/-- Settles O24: the two records differ in the tag alone, so each fixes the other. -/
theorem surfacesGiveTheSameStatusAndResult : Obligations.SurfacesGiveTheSameStatusAndResult := by
  intro f x st v s hf hrst hroom
  obtain ⟨func, hlegal, rfl⟩ := exists_func_of_code hf
  have hrecords : execRecord ⟨fieldsWord (surfCode .raw) func.code, x⟩ = ⟨st, surfCode .raw, v⟩ ↔
      execRecord ⟨fieldsWord (surfCode .typed) func.code, x⟩ = ⟨st, surfCode .typed, v⟩ := by
    rw [execRecord_typed_eq_raw hlegal, response_eq_mk_iff, response_eq_mk_iff]
    simp only [execRecord_surf, surfField_fieldsWord, true_and]
  exact (runCommand_appends_iff hrst hroom).trans
    (hrecords.trans (runCommand_appends_iff hrst hroom).symm)

/-- Settles O25: the record's own tag, read back from R66. -/
theorem everyResponseEchoesItsSurface : Obligations.EveryResponseEchoesItsSurface := fun c _ hrst hroom =>
  ⟨(execRecord c).status, (execRecord c).result,
    (runCommand_appends_iff hrst hroom).2 (response_eq_mk_iff.2 ⟨rfl, execRecord_surf c, rfl⟩)⟩

end Sys2Proof.Machine

/-! The constant reads: a command that names a constant appends that constant's word, on either surface and
whatever its operand (44_const_read.md R170 to R182). -/

namespace Sys2Proof.Machine

/-- A CONST command where `Accept` is enabled (R170): its own word decodes to it, so it appends R66's record
of that word. -/
theorem exec_const_enabled {i : Instr} {k : ConstName} {s : State} (hfunc : i.func = .const k)
    (hrst : s.rst = false) (hroom : s.q.length < Config.depth) :
    exec i s = .next { s with q := s.q ++ [⟨.ok, surfCode i.surface, rom k⟩] } := by
  have hrecord : execRecord (encode i) = constRecord k (surfCode i.surface) := by
    rw [encode, commandWord_eq_fieldsWord, hfunc, execRecord_const]
  rw [exec_decoded (decodeCommand_encode i), hrecord]
  exact respond_enabled _ hrst hroom

/-- The FUNC codes 8 to D are those of the six constants (R62). -/
theorem exists_constFunc_eq {f : BitVec 4} (hlo : 0x8#4 ≤ f) (hhi : f ≤ 0xD#4) :
    ∃ k : ConstName, constFunc k = f := by
  obtain ⟨func, -, hcode⟩ := exists_func_of_code (.inr ⟨hlo, hhi⟩)
  cases func with
  | sqrt => subst hcode; exact absurd hlo (by decide)
  | isqrt => subst hcode; exact absurd hlo (by decide)
  | const k => exact ⟨k, hcode⟩

/-- The legal SURF codes are those of the two surfaces (R61). -/
theorem exists_surfCode_eq {surf : Code} (h : surf = 0b00#2 ∨ surf = 0b01#2) :
    ∃ surface : Surface, surfCode surface = surf := by
  obtain rfl | rfl := h
  · exact ⟨.raw, rfl⟩
  · exact ⟨.typed, rfl⟩

/-- Settles O23: the word is the constant's `rom`, chosen before the operand and the state. -/
theorem constReadsIgnoreTheirOperand : Obligations.ConstReadsIgnoreTheirOperand := by
  intro f surf hlo hhi hsurf
  obtain ⟨k, rfl⟩ := exists_constFunc_eq hlo hhi
  obtain ⟨surface, rfl⟩ := exists_surfCode_eq hsurf
  exact ⟨rom k, romAt_constFunc k, fun x _ hrst hroom =>
    (runCommand_appends_iff hrst hroom).2 (execRecord_const surface k x)⟩

/-- Settles O20. -/
theorem constReadsOfBoundsAppendTheirWords : Obligations.ConstReadsOfBoundsAppendTheirWords :=
  fun _ _ hrst hroom =>
    ⟨exec_const_enabled (k := .maxSD59x18) rfl hrst hroom,
      exec_const_enabled (k := .maxSD59x18) rfl hrst hroom,
      exec_const_enabled (k := .sqrtMaxInput) rfl hrst hroom,
      exec_const_enabled (k := .sqrtMaxInput) rfl hrst hroom⟩

/-- Settles O21: the decimal values of `E` and `PI` are the words the ROM holds in hex (log entry 14). -/
theorem constReadsOfOtherConstantsAppendTheirWords :
    Obligations.ConstReadsOfOtherConstantsAppendTheirWords :=
  fun _ _ hrst hroom =>
    ⟨exec_const_enabled (k := .maxWholeSD59x18) rfl hrst hroom,
      exec_const_enabled (k := .maxWholeSD59x18) rfl hrst hroom,
      exec_const_enabled (k := .minSD59x18) rfl hrst hroom,
      exec_const_enabled (k := .minSD59x18) rfl hrst hroom,
      exec_const_enabled (k := .e) rfl hrst hroom,
      exec_const_enabled (k := .e) rfl hrst hroom,
      exec_const_enabled (k := .pi) rfl hrst hroom,
      exec_const_enabled (k := .pi) rfl hrst hroom⟩

end Sys2Proof.Machine

/-! Status reporting: what each kind of request can report, the failures and their causes, and that a failure
stops nothing (60_exceptions.md R130 to R138). -/

namespace Sys2Proof.Machine

/-- All that the kernel can answer, each on its own class of inputs (R135). -/
theorem sqrtKernel_cases (x : Int) (surf : Code) :
    (x < 0 ∧ sqrtKernel x surf = raiseNegativeInput surf) ∨
    (0 ≤ x ∧ x ≤ sqrtMaxInput ∧ sqrtKernel x surf = ⟨.ok, surf, bv256 (isqrt (rescale x))⟩) ∨
    ((sqrtMaxInput : Int) < x ∧ sqrtKernel x surf = raiseOverflow surf) := by
  obtain hneg | hnonneg := lt_or_ge x 0
  · exact .inl ⟨hneg, sqrtKernel_negative hneg surf⟩
  · obtain hle | hovf := le_or_gt x sqrtMaxInput
    · exact .inr (.inl ⟨hnonneg, hle, sqrtKernel_inRange hnonneg hle surf⟩)
    · exact .inr (.inr ⟨hovf, sqrtKernel_overflow hovf surf⟩)

theorem sqrtKernel_status_eq_neg_iff {x : Int} {surf : Code} :
    (sqrtKernel x surf).status = .neg ↔ x < 0 := by
  obtain ⟨hneg, h⟩ | ⟨hnonneg, -, h⟩ | ⟨hovf, h⟩ := sqrtKernel_cases x surf
  · simp [h, raiseNegativeInput, hneg]
  · simp [h, hnonneg]
  · have hnonneg : 0 ≤ x := (Int.natCast_nonneg sqrtMaxInput).trans hovf.le
    simp [h, raiseOverflow, hnonneg]

theorem sqrtKernel_status_eq_ovf_iff {x : Int} {surf : Code} :
    (sqrtKernel x surf).status = .ovf ↔ (sqrtMaxInput : Int) < x := by
  obtain ⟨hneg, h⟩ | ⟨-, hle, h⟩ | ⟨hovf, h⟩ := sqrtKernel_cases x surf
  · have hle : x ≤ sqrtMaxInput := hneg.le.trans (Int.natCast_nonneg sqrtMaxInput)
    simp [h, raiseNegativeInput, hle]
  · simp [h, hle]
  · simp [h, raiseOverflow, hovf]

theorem sqrtKernel_status_ne_ill (x : Int) (surf : Code) : (sqrtKernel x surf).status ≠ .ill := by
  obtain ⟨-, h⟩ | ⟨-, -, h⟩ | ⟨-, h⟩ := sqrtKernel_cases x surf
  · simp [h, raiseNegativeInput]
  · simp [h]
  · simp [h, raiseOverflow]

theorem sqrtKernel_result_of_status_ne_ok {x : Int} {surf : Code}
    (hfail : (sqrtKernel x surf).status ≠ .ok) : (sqrtKernel x surf).result = 0#256 := by
  obtain ⟨-, h⟩ | ⟨-, -, h⟩ | ⟨-, h⟩ := sqrtKernel_cases x surf
  · rw [h]; rfl
  · simp [h] at hfail
  · rw [h]; rfl

/-- The command words of SQRT.RAW and SQRT.TYPED (R65). -/
def SqrtWord (cmd : Byte) : Prop := cmd = 0x00#8 ∨ cmd = 0x40#8

theorem sqrtWord_commandWord_iff (i : Instr) : SqrtWord (commandWord i) ↔ i.func = .sqrt := by
  cases i <;> simp [SqrtWord, commandWord, Instr.func]

theorem SqrtWord.not_illegalWord {cmd : Byte} (h : SqrtWord cmd) : ¬ IllegalWord cmd := by
  obtain rfl | rfl := h
  · exact not_illegalWord_commandWord (.sqrtRaw 0)
  · exact not_illegalWord_commandWord (.sqrtTyped 0)

/-- A request that does not decode, ISQRT on TYPED included, has the record of an illegal command. -/
theorem execRecord_of_decodeCommand_error {c : Command} {e : DecodeError}
    (h : decodeCommand c = .error e) : execRecord c = raiseIllegalCommand (surfField c.cmd) := by
  obtain hsel | ⟨hsel, -⟩ := decodeCommand_eq_error_iff.1 h
  · exact execRecord_illegal hsel
  · obtain ⟨cmd, x⟩ := c
    obtain rfl : cmd = fieldsWord (surfCode .typed) Func.isqrt.code := selectFunction_ok hsel
    rw [execRecord_isqrt_typed, surfField_fieldsWord]
    rfl

theorem execRecord_encode_sqrt {i : Instr} (h : i.func = .sqrt) :
    execRecord (encode i) = sqrtKernel (sint i.operand) (surfField (commandWord i)) := by
  rw [encode, commandWord_eq_fieldsWord, h, execRecord_sqrt, surfField_fieldsWord]

/-- A command that is no SQRT has no failure: ISQRT is total, and CONST reads a ROM (R91, R170). -/
theorem execRecord_encode_status {i : Instr} (h : i.func ≠ .sqrt) :
    (execRecord (encode i)).status = .ok := by
  rw [encode, commandWord_eq_fieldsWord]
  cases hfunc : i.func with
  | sqrt => exact absurd hfunc h
  | isqrt =>
    cases hsurface : i.surface with
    | raw => rw [execRecord_isqrt_raw]
    | typed =>
      have hlegal : i.func.legalOn i.surface = true := instr_wellFormed i
      rw [hfunc, hsurface] at hlegal
      cases hlegal
  | const k => rw [execRecord_const]; rfl

/-- All that a request can report: ILL for an illegal word, the kernel's record for a SQRT word, OK for
every other word. -/
theorem execRecord_cases (c : Command) :
    (IllegalWord c.cmd ∧ execRecord c = raiseIllegalCommand (surfField c.cmd)) ∨
    (SqrtWord c.cmd ∧ execRecord c = sqrtKernel (sint c.x) (surfField c.cmd)) ∨
    (¬ IllegalWord c.cmd ∧ ¬ SqrtWord c.cmd ∧ (execRecord c).status = .ok) := by
  cases h : decodeCommand c with
  | error e => exact .inl ⟨illegalWord_of_decodeCommand_error h, execRecord_of_decodeCommand_error h⟩
  | ok i =>
    obtain rfl := encode_of_decodeCommand h
    by_cases hfunc : i.func = .sqrt
    · exact .inr (.inl ⟨(sqrtWord_commandWord_iff i).2 hfunc, execRecord_encode_sqrt hfunc⟩)
    · exact .inr (.inr ⟨not_illegalWord_commandWord i, mt (sqrtWord_commandWord_iff i).1 hfunc,
        execRecord_encode_status hfunc⟩)

theorem execRecord_status_eq_ill_iff {c : Command} :
    (execRecord c).status = .ill ↔ IllegalWord c.cmd := by
  obtain ⟨hill, h⟩ | ⟨hsqrt, h⟩ | ⟨hlegal, -, h⟩ := execRecord_cases c
  · simp [h, raiseIllegalCommand, hill]
  · simp [h, sqrtKernel_status_ne_ill, hsqrt.not_illegalWord]
  · simp [h, hlegal]

/-- NEG and OVF come out of the kernel alone, and the kernel runs for the SQRT words alone (R131). -/
theorem execRecord_status_eq_iff_sqrtKernel {c : Command} {status : Status} (hok : status ≠ .ok)
    (hill : status ≠ .ill) : (execRecord c).status = status ↔
      SqrtWord c.cmd ∧ (sqrtKernel (sint c.x) (surfField c.cmd)).status = status := by
  obtain ⟨hword, h⟩ | ⟨hsqrt, h⟩ | ⟨-, hsqrt, h⟩ := execRecord_cases c
  · have hsqrt : ¬ SqrtWord c.cmd := fun hs => hs.not_illegalWord hword
    simp [h, raiseIllegalCommand, hill.symm, hsqrt]
  · simp [h, hsqrt]
  · simp [h, hok.symm, hsqrt]

theorem execRecord_result_of_status_ne_ok {c : Command} (hfail : (execRecord c).status ≠ .ok) :
    (execRecord c).result = 0#256 := by
  obtain ⟨-, h⟩ | ⟨-, h⟩ | ⟨-, -, h⟩ := execRecord_cases c
  · rw [h]; rfl
  · rw [h] at hfail ⊢
    exact sqrtKernel_result_of_status_ne_ok hfail
  · exact absurd h hfail

/-- The square root of 0 has the result 0 with OK, which the status tells apart from a failure's (R133). -/
theorem execRecord_sqrt_zero : execRecord ⟨0x00#8, 0#256⟩ = ⟨.ok, 0b00#2, 0#256⟩ := by
  have hrecord : execRecord ⟨0x00#8, 0#256⟩ = sqrtKernel (sint 0#256) surfRaw :=
    execRecord_sqrt .raw 0#256
  have hzero : sint 0#256 = 0 := by decide
  rw [hrecord, hzero, sqrtKernel_zero]
  rfl

/-- Settles O26. -/
theorem failuresCarryNoResult : Obligations.FailuresCarryNoResult :=
  ⟨fun c s hrst hroom => ⟨execRecord c, everyRequestAppendsItsExecRecord c s hrst hroom,
    execRecord_result_of_status_ne_ok⟩, execRecord_sqrt_zero⟩

/-- Settles O27. -/
theorem statusIsRaisedOnlyByItsCause : Obligations.StatusIsRaisedOnlyByItsCause := by
  refine ⟨fun c => ⟨?_, ?_, ?_⟩, rfl, rfl, rfl, rfl⟩
  · rw [execRecord_status_eq_iff_sqrtKernel (by decide) (by decide), sqrtKernel_status_eq_neg_iff]
    rfl
  · rw [execRecord_status_eq_iff_sqrtKernel (by decide) (by decide), sqrtKernel_status_eq_ovf_iff]
    rfl
  · rw [execRecord_status_eq_ill_iff, decodeCommand_error_iff_illegalWord]

/-- How a host reads `rsp_status` (R136). -/
def statusOfCode (code : Code) : Status :=
  if code = 0b00#2 then .ok
  else if code = 0b01#2 then .neg
  else if code = 0b10#2 then .ovf
  else .ill

theorem statusOfCode_statusCode (a : Status) : statusOfCode (statusCode a) = a := by
  cases a <;> rfl

/-- Settles O28: the code alone gives the status back. -/
theorem statusCodesAreDistinct : Obligations.StatusCodesAreDistinct :=
  Function.LeftInverse.injective statusOfCode_statusCode

/-- `respond` neither faults nor refuses, whether the record is taken or waits. -/
theorem respond_answers (r : Response) (s : State) : ∃ t, respond r s = .next t := by
  by_cases h : s.rst = false ∧ s.q.length < Config.depth
  · obtain ⟨hrst, hroom⟩ := h
    exact ⟨_, respond_enabled r hrst hroom⟩
  · exact ⟨_, respond_waits r h⟩

/-- Settles O31: whatever its record, a request is one `respond`. -/
theorem noRequestStopsTheEngine : Obligations.NoRequestStopsTheEngine := by
  intro c s
  rw [runCommand_eq_respond]
  exact respond_answers (execRecord c) s

end Sys2Proof.Machine

/-! Reset, and the countdown of the wait for `rsp_valid` (10_state.md R150, R153, R158). -/

namespace Sys2Proof.Machine

/-- Settles O41. -/
theorem resetEdgeEmptiesTheQueue : Obligations.ResetEdgeEmptiesTheQueue := by
  intro s hr
  obtain ⟨hreq, hrsp⟩ := no_transfer_in_reset (s := s) hr
  exact ⟨hreq, hrsp, s.resetEdge (pinsNow s), step_resetEdge hr, rfl, rfl, rfl, rfl, rfl⟩

/-- What every edge without reset counts down by one, a run without reset counts down to 0. -/
theorem run_counts_down {P : Nat → State → Prop}
    (hP : ∀ {n s t}, P (n + 1) s → (pinsNow s).rst = false → step s = .next t → P n t)
    {n : Nat} {s t : State} (hs : P n s) (hpins : ∀ p ∈ s.pins, p.rst = false)
    (h : Host.Core.run core n s = .next t) : P 0 t := by
  induction n generalizing s with
  | zero => exact run_zero h ▸ hs
  | succ n ih =>
    obtain ⟨u, hu, h⟩ := run_succ h
    have hpins' : ∀ p ∈ u.pins, p.rst = false := fun p hp =>
      hpins p (List.mem_of_mem_tail (step_pins hu ▸ hp))
    exact ih (hP hs (pinsNow_rst hpins) hu) hpins' h

/-- A response is at the head of `Q`, outside reset, with `n` edges to wait for `rsp_valid`. -/
def ValidIn (n : Nat) (s : State) : Prop := s.rst = false ∧ s.q ≠ [] ∧ s.validWait = n

theorem rspValid_iff_validIn_zero {s : State} : rspValid s = true ↔ ValidIn 0 s := rspValid_iff

/-- While the wait runs the head cannot be taken, so it stays the head and draws no new wait. -/
theorem step_counts_validIn {n : Nat} {s t : State} (hs : ValidIn (n + 1) s)
    (hr : (pinsNow s).rst = false) (h : step s = .next t) : ValidIn n t := by
  obtain ⟨-, hne, hw⟩ := hs
  have hd : responseTransfer s (pinsNow s) = false := by simp [responseTransfer, rspValid, hw]
  obtain rfl := step_next_of_no_reset h hr
  exact ⟨by simp, by simp [State.transferEdge_q, hd, hne], by simp [nextValidWait, hd, hne, hw]⟩

/-- Settles O48. -/
theorem validRisesAfterItsLatency : Obligations.ValidRisesAfterItsLatency :=
  fun _ _ hrst hne hpins h =>
    rspValid_iff_validIn_zero.2 (run_counts_down step_counts_validIn ⟨hrst, hne, rfl⟩ hpins h)

end Sys2Proof.Machine
